-- ==== Sys2Proof/Word.lean ====
section
/-! DEFINITION. The machine's words: bytes of the buffer, 16-bit values, text (spec/00_scope.md R10, R14). -/

namespace Sys2Proof

/-- One element of the instruction buffer, an 8-bit unsigned byte (20_memory.md R40). -/
abbrev Byte := BitVec 8

/-- A 16-bit displacement, direct address or immediate (10_state.md R26). -/
abbrev Word := BitVec 16

/-- What the formatter writes: a line's characters in order (30_encoding.md R85). -/
abbrev Text := List Char

end Sys2Proof
end

