-- ==== Sys2Proof/Machine/Bits.lean ====
section
/-! DEFINITION. Bit fields, extension and byte order (spec/00_scope.md R12 to R14, 20_memory.md R44). -/

namespace Sys2Proof.Machine

/-- `sext_16(v)`: the byte's top bit copied into bits 15 down to 8 (R14). -/
def sext16 (v : Byte) : Word := v.signExtend 16

/-- `zext_16(v)`: zeros above the byte (R14). -/
def zext16 (v : Byte) : Word := v.setWidth 16

/-- `(hi << 8) | lo`: two bytes, the low one first in the stream (20_memory.md R44). -/
def le16 (lo hi : Byte) : Word := (zext16 hi <<< 8) ||| zext16 lo

/-- `signed16(v)`: two's complement, -32768 to 32767 (R14). -/
def signed16 (v : Word) : Int := v.toInt

/-- `unsigned(v)`: 0 to 65535 (R14). -/
def unsigned16 (v : Word) : Nat := v.toNat

/-- The low byte of a 16-bit value. -/
def loByte (v : Word) : Byte := v.setWidth 8

/-- The high byte of a 16-bit value. -/
def hiByte (v : Word) : Byte := (v >>> 8).setWidth 8

/-- The first `n` bytes of a number laid out with bit 0 the least significant bit of the first byte. -/
def bytesOfNat : Nat → Nat → List Byte
  | 0, _ => []
  | n + 1, w => BitVec.ofNat 8 w :: bytesOfNat n (w / 256)

end Sys2Proof.Machine
end

