-- ==== Sys2Proof/Machine/Fields.lean ====
section
/-! DEFINITION. The field extractor (spec/30_encoding.md R67 to R71). -/

namespace Sys2Proof.Machine

/-- `d = b1[1]`: true when the `reg` field is the destination (R67, R68). -/
def mrmD (b1 : Byte) : Bool := b1.getLsbD 1

/-- `w = b1[0]` of the MRM format (R67, R69). -/
def mrmW (b1 : Byte) : Bool := b1.getLsbD 0

/-- `mod = b2[7:6]` (R67). -/
def modField (b2 : Byte) : BitVec 2 := b2.extractLsb' 6 2

/-- `reg = b2[5:3]` (R67). -/
def regField (b2 : Byte) : BitVec 3 := b2.extractLsb' 3 3

/-- `rm = b2[2:0]` (R67). -/
def rmField (b2 : Byte) : BitVec 3 := b2.extractLsb' 0 3

/-- `w = b1[3]` of the IMM format (R69, R70). -/
def immW (b1 : Byte) : Bool := b1.getLsbD 3

/-- `reg = b1[2:0]` of the IMM format (R70). -/
def immReg (b1 : Byte) : BitVec 3 := b1.extractLsb' 0 3

/-- A bit as a one-bit vector, for writing a field. -/
def bit (b : Bool) : BitVec 1 := BitVec.ofBool b

/-- byte1 of the MRM format: `100010dw` (R61). -/
def mrmByte1 (d w : Bool) : Byte := 0b100010#6 ++ bit d ++ bit w

/-- byte2 of the MRM format: `mod`, `reg`, `rm` (R61). -/
def mrmByte2 (mod : BitVec 2) (reg rm : BitVec 3) : Byte := mod ++ reg ++ rm

/-- byte1 of the IMM format: `1011wreg` (R62). -/
def immByte1 (w : Bool) (reg : BitVec 3) : Byte := 0b1011#4 ++ bit w ++ reg

end Sys2Proof.Machine
end

