-- ==== Sys2Proof/Machine/Recognizer.lean ====
section
/-! DEFINITION. The opcode recognizer, a bit-mask matcher on byte1 (spec/30_encoding.md R63 to R66). -/

namespace Sys2Proof.Machine

/-- The instruction format a recognized byte1 selects (30_encoding.md R60). -/
inductive Family where
  /-- `100010dw` (R61) -/
  | mrm
  /-- `1011wreg` (R62) -/
  | imm
deriving DecidableEq, Repr

/-- The mask with `n` significant high bits: ones in bits 7 down to 8-n, zeros below (R63). -/
def candidateMask (n : Nat) : Byte := 0xFF#8 <<< (8 - n)

/-- One candidate mask with its known opcode constants, each with the handler it selects. -/
abbrev Candidate := Byte × List (Byte × Family)

/-- The recognizer's table in trial order, most general mask first. The 5-bit and 7-bit masks have no constant in
scope (R64, D13; log entry 18). -/
def recognizerTable : List Candidate :=
  [(candidateMask 4, [(0xB0#8, .imm)]),
   (candidateMask 5, []),
   (candidateMask 6, [(0x88#8, .mrm)]),
   (candidateMask 7, [])]

/-- The first known constant of one candidate that byte1 equals after masking: an exact comparison, "not merely 'any
mask hit'" (R65). -/
def matchCandidate (b1 : Byte) (c : Candidate) : Option Family :=
  c.2.findSome? fun k => if b1 &&& c.1 = k.1 then some k.2 else none

/-- The first match over a table in its trial order; `none` is the rule's `NONE`. -/
def recognizeIn (table : List Candidate) (b1 : Byte) : Option Family :=
  table.findSome? (matchCandidate b1)

/-- `recognize(b1)` (R65). -/
def recognize (b1 : Byte) : Option Family := recognizeIn recognizerTable b1

/-- The hardware form's first comparator, `b1[7:4] == 0b1011` (R65). -/
def matchImm (b1 : Byte) : Bool := b1.extractLsb' 4 4 == 0b1011#4

/-- The hardware form's second comparator, `b1[7:2] == 0b100010` (R65). -/
def matchMrm (b1 : Byte) : Bool := b1.extractLsb' 2 6 == 0b100010#6

end Sys2Proof.Machine
end

