-- ==== Sys2Proof/Machine/Displacement.lean ====
section
/-! DEFINITION. The displacement parser (spec/30_encoding.md R72 to R74). -/

namespace Sys2Proof.Machine

/-- `dlen(mod, rm)`, the number of displacement bytes (R72). -/
def dlen (mod : BitVec 2) (rm : BitVec 3) : Nat :=
  if mod = 0b11#2 then 0
  else if mod = 0b00#2 then (if rm = 0b110#3 then 2 else 0)
  else if mod = 0b01#2 then 1
  else 2

/-- The displacement from `n` bytes: none gives 0, one is sign-extended, two are little-endian (R73). -/
def displacement (n : Nat) (lo hi : Byte) : Word :=
  if n = 0 then 0#16 else if n = 1 then sext16 lo else le16 lo hi

end Sys2Proof.Machine
end

