-- ==== Sys2Proof/Config.lean ====
section
/-! DEFINITION. What the spec leaves open, as constants without a body: nothing can be proved about their values.
R11's two parameters (`POS_W`, `NEG_DISP_TEXT`) and the unstated wording of the command line's diagnostic (R158). -/

namespace Sys2Proof

/-- The two candidate spellings of a negative displacement (30_encoding.md R90, 92_eei_decisions.md D8). -/
inductive NegDispText where
  /-- `[bp + -2]` -/
  | plusNegative
  /-- `[bp - 2]` -/
  | minus
deriving DecidableEq, Repr, Inhabited

/-- `POS_W`: the width of a buffer position and of the buffer length (00_scope.md R11, D2). OPEN. No rule depends
on it: positions are natural numbers (R14). Log entry 4. -/
opaque Config.posWidth : Nat

/-- `NEG_DISP_TEXT`: how the formatter spells a negative displacement (00_scope.md R11, D8). OPEN. Log entry 9. -/
opaque Config.negDispText : NegDispText

/-- The diagnostic for an input that cannot be read (60_exceptions.md R158): the spec gives no wording. Log entry 16. -/
opaque Config.sourceUnavailableDiagnostic : Text

/-- The diagnostic for an unrecognized opcode `byte` at an offset (R158): the spec gives no wording. Log entry 16. -/
opaque Config.unrecognizedOpcodeDiagnostic : Byte → Nat → Text

/-- What is printed for an exhausted buffer: R158 does not say whether a diagnostic is given. Log entry 16. -/
opaque Config.bufferExhaustedDiagnostic : Nat → Option Text

/-- A position or length that `POS_W` bits can hold. -/
def Config.FitsPosition (n : Nat) : Prop := n < 2 ^ Config.posWidth

/-- The spec's label for the instruction set (00_scope.md R3, D1). Log entry 29. -/
def Config.identity : String := "i8086-mov-subset"

end Sys2Proof
end

