-- ==== Sys2Proof/Syntax.lean ====
section
/-! DEFINITION. The syntax: the six instructions (opcode_table.json), and the records a decode call returns
(10_state.md R24 to R26, 60_exceptions.md R151). -/

namespace Sys2Proof

/-- The fields of a register/memory move beyond `d` and `w` (30_encoding.md R61, R67), with the displacement parser's
16-bit value (R73). -/
structure MrmFields where
  /-- byte2[7:6], the addressing mode (R71) -/
  mod : BitVec 2
  /-- byte2[5:3], the register operand's index (R76) -/
  reg : BitVec 3
  /-- byte2[2:0], the register or effective-address index (R77) -/
  rm : BitVec 3
  /-- the displacement, or the direct address; 0 where the form has none (R73) -/
  disp : Word
deriving DecidableEq, Repr

/-- One constructor per row of spec/opcode_table.json. -/
inductive Instr where
  /-- `mov r/m8, r8`, byte1 = 0x88 (40_mov_regmem.md R104) -/
  | movRm8R8 (f : MrmFields)
  /-- `mov r/m16, r16`, byte1 = 0x89 (R105) -/
  | movRm16R16 (f : MrmFields)
  /-- `mov r8, r/m8`, byte1 = 0x8A (R106) -/
  | movR8Rm8 (f : MrmFields)
  /-- `mov r16, r/m16`, byte1 = 0x8B (R107) -/
  | movR16Rm16 (f : MrmFields)
  /-- `mov r8, imm8`, byte1 = 0xB0 + reg (41_mov_imm.md R134) -/
  | movR8Imm8 (reg : BitVec 3) (imm : Byte)
  /-- `mov r16, imm16`, byte1 = 0xB8 + reg (R135) -/
  | movR16Imm16 (reg : BitVec 3) (imm : Word)
deriving DecidableEq, Repr

/-- The mnemonic of a decoded instruction: always `MOV` (10_state.md R25). -/
inductive Mnemonic where
  | mov
deriving DecidableEq, Repr

/-- An operand (10_state.md R26). `w` is the width bit: false for 8-bit, true for 16-bit. -/
inductive Operand where
  /-- the register `RegName(w, idx)` -/
  | reg (w : Bool) (idx : BitVec 3)
  /-- memory at the base/index expression `EA[ea]` plus `signed16(disp)` -/
  | mem (w : Bool) (ea : BitVec 3) (disp : Word)
  /-- memory at a direct address, the reserved direct-address case (30_encoding.md R78) -/
  | direct (w : Bool) (addr : Word)
  /-- the immediate integer `unsigned(value)` -/
  | imm (w : Bool) (value : Word)
deriving DecidableEq, Repr

/-- `DecodedInstruction` (10_state.md R25). `length` is the count of consumed bytes. -/
structure DecodedInstruction where
  mnemonic : Mnemonic
  dst : Operand
  src : Operand
  length : Nat
deriving DecidableEq, Repr

/-- `DecodeError`, exactly two constructors (60_exceptions.md R151). `offset` is the rule's `at`. -/
inductive DecodeError where
  /-- byte1 matches no known pattern (R152) -/
  | unrecognizedOpcode (byte : Byte) (offset : Nat)
  /-- the first needed offset lies at or past the buffer's end (R153) -/
  | bufferExhausted (offset : Nat)
deriving DecidableEq, Repr

/-- What a decode call returns: a record or an error, never both and never neither (00_scope.md R16, 10_state.md R24). -/
inductive DecodeResult where
  | ok (r : DecodedInstruction)
  | err (e : DecodeError)
deriving DecidableEq, Repr

end Sys2Proof
end

