-- ==== Sys2Proof/WellFormed.lean ====
section
/-! DEFINITION. Which instruction terms an encoding can produce. The two formats have no reserved field value
(spec/30_encoding.md R82); what a term can get wrong is a displacement its addressing mode cannot carry (R73). Log entry 28. -/

namespace Sys2Proof

/-- A form without displacement bytes has displacement 0 (30_encoding.md R73). -/
def MrmFields.noStrayDisp (f : MrmFields) : Bool :=
  Machine.dlen f.mod f.rm != 0 || f.disp == 0#16

/-- A form with one displacement byte has a displacement that is that byte sign-extended (R73, R74). -/
def MrmFields.disp8InRange (f : MrmFields) : Bool :=
  Machine.dlen f.mod f.rm != 1 || f.disp == Machine.sext16 (Machine.loByte f.disp)

/-- The checks of a register/memory move's fields. -/
def MrmFields.wf (f : MrmFields) : Bool := f.noStrayDisp && f.disp8InRange

/-- Every immediate move is well formed: each field fills its encoding (R82). -/
def Instr.wf : Instr → Bool
  | .movRm8R8 f => f.wf
  | .movRm16R16 f => f.wf
  | .movR8Rm8 f => f.wf
  | .movR16Rm16 f => f.wf
  | .movR8Imm8 _ _ => true
  | .movR16Imm16 _ _ => true

end Sys2Proof
end

