-- ==== Sys2Proof/Decode.lean ====
section
/-! DEFINITION. The decoder, total on any bytes, and the encoder written from the same encoding rules
(spec/30_encoding.md R60 to R62, R67 to R73, R79, R80, R92). The encoder is the model's tool: the hardware decodes only
(00_scope.md R6; log entry 25). -/

namespace Sys2Proof

/-- Why bytes are no instruction. Offsets count from byte1, as the port `err_off` does (60_exceptions.md R151). -/
inductive Reject where
  /-- byte1 is outside the 20 recognized values (R152) -/
  | unrecognizedOpcode (byte : Byte)
  /-- the byte at this offset is needed and is not there (R153) -/
  | bufferExhausted (offset : Nat)
deriving DecidableEq, Repr

/-- What the decoder reads from bytes. -/
inductive Decoded where
  | instr (i : Instr)
  | reject (r : Reject)
deriving DecidableEq, Repr

/-- The row a register/memory move's `d` and `w` select (30_encoding.md R66). -/
def mrmInstr (d w : Bool) (f : MrmFields) : Instr :=
  match d, w with
  | false, false => .movRm8R8 f
  | false, true => .movRm16R16 f
  | true, false => .movR8Rm8 f
  | true, true => .movR16Rm16 f

/-- The displacement bytes after byte2, each only if it is needed (R72, R73, R80). -/
def decodeDisp (n : Nat) (rest : List Byte) : Except Reject Word :=
  match rest with
  | lo :: hi :: _ => .ok (Machine.displacement n lo hi)
  | [lo] => if n ≤ 1 then .ok (Machine.displacement n lo 0) else .error (.bufferExhausted 3)
  | [] => if n = 0 then .ok (Machine.displacement n 0 0) else .error (.bufferExhausted 2)

/-- The MRM format after byte1 (40_mov_regmem.md R100). -/
def decodeMrmBytes (b1 : Byte) (rest : List Byte) : Decoded :=
  match rest with
  | [] => .reject (.bufferExhausted 1)
  | b2 :: rest =>
    match decodeDisp (Machine.dlen (Machine.modField b2) (Machine.rmField b2)) rest with
    | .ok disp =>
      .instr (mrmInstr (Machine.mrmD b1) (Machine.mrmW b1)
        { mod := Machine.modField b2, reg := Machine.regField b2, rm := Machine.rmField b2, disp := disp })
    | .error r => .reject r

/-- The IMM format after byte1 (41_mov_imm.md R130). -/
def decodeImmBytes (b1 : Byte) (rest : List Byte) : Decoded :=
  if Machine.immW b1 then
    match rest with
    | [] => .reject (.bufferExhausted 1)
    | [_] => .reject (.bufferExhausted 2)
    | lo :: hi :: _ => .instr (.movR16Imm16 (Machine.immReg b1) (Machine.le16 lo hi))
  else
    match rest with
    | [] => .reject (.bufferExhausted 1)
    | lo :: _ => .instr (.movR8Imm8 (Machine.immReg b1) lo)

/-- The instruction at the head of a list of bytes; the bytes after it are not looked at (30_encoding.md R92). -/
def decode : List Byte → Decoded
  | [] => .reject (.bufferExhausted 0)
  | b1 :: rest =>
    match Machine.recognize b1 with
    | some .mrm => decodeMrmBytes b1 rest
    | some .imm => decodeImmBytes b1 rest
    | none => .reject (.unrecognizedOpcode b1)

/-- The number of bytes of an instruction: `2 + dlen(mod, rm)` for MRM, `2 + w` for IMM (R79). -/
def Instr.length : Instr → Nat
  | .movRm8R8 f => 2 + Machine.dlen f.mod f.rm
  | .movRm16R16 f => 2 + Machine.dlen f.mod f.rm
  | .movR8Rm8 f => 2 + Machine.dlen f.mod f.rm
  | .movR16Rm16 f => 2 + Machine.dlen f.mod f.rm
  | .movR8Imm8 _ _ => 2
  | .movR16Imm16 _ _ => 3

/-- The displacement bytes of a form with `n` of them, low byte first (R61, R73). -/
def encodeDisp (n : Nat) (disp : Word) : List Byte :=
  if n = 0 then [] else if n = 1 then [Machine.loByte disp] else [Machine.loByte disp, Machine.hiByte disp]

/-- The bytes of a register/memory move (R61). -/
def encodeMrm (d w : Bool) (f : MrmFields) : List Byte :=
  Machine.mrmByte1 d w :: Machine.mrmByte2 f.mod f.reg f.rm :: encodeDisp (Machine.dlen f.mod f.rm) f.disp

/-- The bytes of an instruction (R61, R62). -/
def encode : Instr → List Byte
  | .movRm8R8 f => encodeMrm false false f
  | .movRm16R16 f => encodeMrm false true f
  | .movR8Rm8 f => encodeMrm true false f
  | .movR16Rm16 f => encodeMrm true true f
  | .movR8Imm8 reg imm => [Machine.immByte1 false reg, imm]
  | .movR16Imm16 reg imm => [Machine.immByte1 true reg, Machine.loByte imm, Machine.hiByte imm]

/-- The longest instruction, in bytes (00_scope.md R10). -/
def maxLength : Nat := 4

/-- The bytes a table word stands for: bit 0 is bit 0 of the first byte, every bit at or above `nbits` is 0. -/
def tableWordBytes (nbits w : Nat) : List Byte := Machine.bytesOfNat maxLength (w % 2 ^ nbits)

/-- The instruction the decoder reads from a word numbered as spec/opcode_table.json numbers it. -/
def decodeTableWord (nbits w : Nat) : Option Instr :=
  match decode (tableWordBytes nbits w) with
  | .instr i => some i
  | .reject _ => none

end Sys2Proof
end

