-- ==== Sys2Proof/Machine/State.lean ====
section
/-! DEFINITION. The machine's state. The decoder core holds none (spec/10_state.md R20, R22); what the spec gives the
system is the immutable buffer (20_memory.md R40), the driver's offset and pass (10_state.md R32, R33) and what the
formatter has written (30_encoding.md R85). -/

namespace Sys2Proof.Machine

/-- The buffer's contents in canonical form: offsets strictly rising, no entry equal to `Memory.unlisted`. -/
abbrev Memory := List Host.Cell

/-- What an offset below `len` that no cell lists reads as. This is how a byte 0 of the buffer is written down, not a
value given to a missing byte: an offset at or past `len` is never read. Log entry 2. -/
def Memory.unlisted : Byte := 0#8

/-- How far a pass is (10_state.md R32). -/
inductive Phase where
  /-- the buffer is loaded and the formatter has written nothing (70_reset_and_hazards.md R181) -/
  | idle
  /-- the driver's loop runs -/
  | running
  /-- the loop ended at the end of the buffer: "stop with success" -/
  | completed
  /-- a decode call returned an error: "stop the pass with error e" (60_exceptions.md R157) -/
  | failed (e : DecodeError)
  /-- the loader could not read its input, and no decoding was attempted (60_exceptions.md R154) -/
  | sourceUnavailable
deriving DecidableEq, Repr

/-- One line of the formatter's output, in structured form (30_encoding.md R85). -/
inductive Line where
  /-- the directive `bits 16`, once per program before any instruction line -/
  | bits16
  /-- the line of one decoded instruction -/
  | instruction (r : DecodedInstruction)
deriving DecidableEq, Repr

structure State where
  /-- the instruction byte buffer's contents (20_memory.md R40) -/
  mem : Memory
  /-- the buffer's length (10_state.md R23) -/
  len : Nat
  /-- the driver's read offset (10_state.md R32, R33) -/
  pos : Nat
  /-- how far the pass is -/
  phase : Phase
  /-- what the formatter has written, first line first -/
  written : List Line
deriving DecidableEq, Repr

/-- Why a step stops the machine. Each is raised by `fetch` in a pass that has already ended with that error, and only
there: the driver makes no further decode call (60_exceptions.md R157), and 93_implementation_defined.md U1, U2 treat
the errors as faults. The error itself is a state the pass reaches first. Safe: nothing can follow a fault. Log entry 6. -/
inductive Fault where
  /-- the pass stopped at a byte1 no pattern matches (R152). Safe. -/
  | unrecognizedOpcode (byte : Byte) (offset : Nat)
  /-- the pass stopped because a needed byte lies at or past the end (R153). Safe. -/
  | bufferExhausted (offset : Nat)
  /-- the loader had no input, so there is no pass (R154). Safe. -/
  | sourceUnavailable
deriving DecidableEq, Repr

/-- An instruction without a meaning. -/
inductive Refusal where
  /-- an arm of `exec` not modelled yet, by its mnemonic; no arm raises it now. Safe. -/
  | notModelled (mnemonic : String)
deriving DecidableEq, Repr

/-- The machine right after reset: the core has no state to reset (70_reset_and_hazards.md R180), `pos = 0` and the
formatter has written nothing (R181). No buffer is loaded: `mem` and `len` are a DESIGN CHOICE (log entry 3). -/
def State.reset : State :=
  { mem := [], len := 0, pos := 0, phase := .idle, written := [] }

end Sys2Proof.Machine
end

