-- ==== Sys2Proof/Machine/Ops.lean ====
section
/-! DEFINITION. The named operations over the buffer and the driver: reading a byte, the fetch window, and everything
that changes the state (start, forward and advance, take an error, complete, load). -/

namespace Sys2Proof.Machine

/-! ### The buffer (20_memory.md) -/

/-- The cells have offsets rising from `lo` and none lists the unlisted byte. -/
def Memory.wfFrom : Nat → Memory → Bool
  | _, [] => true
  | lo, (a, v) :: m => decide (lo ≤ a) && v != Memory.unlisted && Memory.wfFrom (a + 1) m

/-- The canonical form: equal buffers of one length are equal lists. -/
def Memory.wf (m : Memory) : Bool := Memory.wfFrom 0 m

/-- Every listed offset lies inside a buffer of length `len`. -/
def Memory.within (m : Memory) (len : Nat) : Bool := m.all fun c => decide (c.1 < len)

/-- The element at an offset inside the buffer. -/
def Memory.read : Memory → Nat → Byte
  | [], _ => Memory.unlisted
  | (a, v) :: m, p => if a = p then v else Memory.read m p

/-- A cell in front of the rest, left out if it says what an unlisted offset says. -/
def Memory.cons (p : Nat) (v : Byte) (m : Memory) : Memory :=
  if v = Memory.unlisted then m else (p, v) :: m

/-- Replace one element. Only the loader writes: the core has no write port (R42), and no step calls this. -/
def Memory.write : Memory → Nat → Byte → Memory
  | [], p, v => Memory.cons p v []
  | (a, b) :: m, p, v =>
    if p < a then Memory.cons p v ((a, b) :: m)
    else if p = a then Memory.cons p v m
    else (a, b) :: Memory.write m p v

/-- Write bytes at rising offsets. -/
def Memory.writeBytes : Memory → Nat → List Byte → Memory
  | m, _, [] => m
  | m, p, v :: vs => Memory.writeBytes (Memory.write m p v) (p + 1) vs

/-- The contents of a buffer whose element at offset `p + i` is the i-th byte of a list. -/
def Memory.ofBytesFrom : Nat → List Byte → Memory
  | _, [] => []
  | p, v :: vs => Memory.cons p v (Memory.ofBytesFrom (p + 1) vs)

/-- The contents of a buffer that holds exactly these bytes. -/
def Memory.ofBytes (bytes : List Byte) : Memory := Memory.ofBytesFrom 0 bytes

/-- The Byte Cursor's guarded read: the element at `p` if `p < len`, and no byte otherwise (R41, 30_encoding.md R80). -/
def byteAt (buf : Memory) (len p : Nat) : Option Byte :=
  if p < len then some (buf.read p) else none

/-- `avail`: how many of the four window bytes exist (10_state.md R27). -/
def available (len pos : Nat) : Nat := if pos < len then min maxLength (len - pos) else 0

/-- The bytes of the fetch window that exist, `win_0 .. win_(avail-1)` (10_state.md R27). -/
def windowBytes (buf : Memory) (len pos : Nat) : List Byte :=
  (List.range (available len pos)).map fun i => buf.read (pos + i)

/-- The window at the driver's offset. -/
def State.window (s : State) : List Byte := windowBytes s.mem s.len s.pos

/-! ### Errors (60_exceptions.md) -/

/-- A rejection of the bytes at `pos` as the error a decode call at `pos` returns (R151). -/
def errorOfReject (pos : Nat) : Reject → DecodeError
  | .unrecognizedOpcode byte => .unrecognizedOpcode byte pos
  | .bufferExhausted offset => .bufferExhausted (pos + offset)

/-- TAKING AN ERROR: the driver stops the pass with it. "It saves no state, changes no state, transfers control nowhere":
`pos` is not advanced and no line is written (R150, R157, R160). There is no return from it (R160). -/
def State.takeError (e : DecodeError) (s : State) : State := { s with phase := .failed e }

/-- The fault a step of a pass that ended with `e` answers. -/
def faultOfError : DecodeError → Fault
  | .unrecognizedOpcode byte offset => .unrecognizedOpcode byte offset
  | .bufferExhausted offset => .bufferExhausted offset

/-! ### The driver (10_state.md R32) -/

/-- Begin the pass: the formatter writes `bits 16`, before the first decode call (70_reset_and_hazards.md R181). -/
def State.start (s : State) : State := { s with phase := .running, written := s.written ++ [.bits16] }

/-- Forward a record to the formatter and advance by exactly its length (10_state.md R32, 70_reset_and_hazards.md R183). -/
def State.accept (r : DecodedInstruction) (s : State) : State :=
  { s with pos := s.pos + r.length, written := s.written ++ [.instruction r] }

/-- The loop's test failed: the pass ends with success. -/
def State.complete (s : State) : State := { s with phase := .completed }

/-! ### The loader (70_reset_and_hazards.md R182) -/

/-- The machine with an input loaded, or with none that could be read (60_exceptions.md R154). -/
def State.load : Option (List Byte) → State
  | some bytes => { State.reset with mem := Memory.ofBytes bytes, len := bytes.length }
  | none => { State.reset with phase := .sourceUnavailable }

/-- Put bytes at the driver's offset, with the buffer long enough to hold them and the pass under way: `bits 16` is
written if it has not been. Log entry 5. -/
def State.placeAtPos (bytes : List Byte) (s : State) : State :=
  { s with
    mem := s.mem.writeBytes s.pos bytes
    len := max s.len (s.pos + bytes.length)
    phase := .running
    written := if s.written.isEmpty then [.bits16] else s.written }

end Sys2Proof.Machine
end

