-- ==== Sys2Proof/Machine/Operands.lean ====
section
/-! DEFINITION. The operand resolver: every operand form, and the two constant tables it selects from
(spec/30_encoding.md R75 to R78, 10_state.md R30, R31, R34). A register operand is a selection and not a read (R35). -/

namespace Sys2Proof.Machine

/-! ### Tables -/

/-- The 8-bit register names in index order (10_state.md R30). `al` and `cl` are the source's, the rest the spec's from
general knowledge (D5; log entry 8). -/
def regNames8 : List Text :=
  [['a', 'l'], ['c', 'l'], ['d', 'l'], ['b', 'l'], ['a', 'h'], ['c', 'h'], ['d', 'h'], ['b', 'h']]

/-- The 16-bit register names in index order (10_state.md R30). `ax`, `cx` and `bx` are the source's (D5; log entry 8). -/
def regNames16 : List Text :=
  [['a', 'x'], ['c', 'x'], ['d', 'x'], ['b', 'x'], ['s', 'p'], ['b', 'p'], ['s', 'i'], ['d', 'i']]

/-- `RegName(w, i)` (10_state.md R30). -/
def regName (w : Bool) (i : BitVec 3) : Text :=
  (if w then regNames16 else regNames8).getD i.toNat []

/-- A register a base/index expression can name. -/
inductive EaReg where
  | bx
  | bp
  | si
  | di
deriving DecidableEq, Repr

/-- `EA[rm]`: the base/index registers of an effective address, base first (10_state.md R31). -/
def eaTable : List (List EaReg) :=
  [[.bx, .si], [.bx, .di], [.bp, .si], [.bp, .di], [.si], [.di], [.bp], [.bx]]

/-- The base/index expression an index selects (10_state.md R31). -/
def eaRegs (ea : BitVec 3) : List EaReg := eaTable.getD ea.toNat []

/-! ### Operand forms -/

/-- The register side: `Reg(w, reg)`, always a register operand (R76). -/
def regOperand (w : Bool) (reg : BitVec 3) : Operand := .reg w reg

/-- The `rm` side (R77), with the reserved direct-address case (R78; D6, log entry 10). -/
def rmOperand (w : Bool) (mod : BitVec 2) (rm : BitVec 3) (disp : Word) : Operand :=
  if mod = 0b11#2 then .reg w rm
  else if mod = 0b00#2 ∧ rm = 0b110#3 then .direct w disp
  else .mem w rm disp

/-- The immediate: zero-extended from 8 bits or the 16 bits as they are, never sign-extended (R75). -/
def immOperand8 (imm : Byte) : Operand := .imm false (zext16 imm)

/-- The 16-bit immediate (R75). -/
def immOperand16 (imm : Word) : Operand := .imm true imm

/-! ### Records -/

/-- The record of a register/memory move: `d` says which side is the destination, for every `mod` (R68, 40_mov_regmem.md
R100). -/
def mrmRecord (d w : Bool) (f : MrmFields) : DecodedInstruction :=
  let regop := regOperand w f.reg
  let rmop := rmOperand w f.mod f.rm f.disp
  { mnemonic := .mov
    dst := if d then regop else rmop
    src := if d then rmop else regop
    length := 2 + dlen f.mod f.rm }

/-- The record of an immediate move: the register is always the destination (R70, 41_mov_imm.md R130). -/
def immRecord (w : Bool) (reg : BitVec 3) (src : Operand) : DecodedInstruction :=
  { mnemonic := .mov, dst := regOperand w reg, src := src, length := 2 + w.toNat }

/-- The record of an instruction (10_state.md R25, R104 to R107, R134, R135). -/
def recordOf : Instr → DecodedInstruction
  | .movRm8R8 f => mrmRecord false false f
  | .movRm16R16 f => mrmRecord false true f
  | .movR8Rm8 f => mrmRecord true false f
  | .movR16Rm16 f => mrmRecord true true f
  | .movR8Imm8 reg imm => immRecord false reg (immOperand8 imm)
  | .movR16Imm16 reg imm => immRecord true reg (immOperand16 imm)

end Sys2Proof.Machine
end

