-- ==== Sys2Proof/Machine/MovImm.lean ====
section
/-! DEFINITION. The immediate-to-register move family, `1011wreg` (spec/41_mov_imm.md). No flag is written (R132). -/

namespace Sys2Proof.Machine

/-- `mov r8, imm8` (R134): w = 0, the immediate zero-extended. -/
def execMovR8Imm8 (reg : BitVec 3) (imm : Byte) (s : State) : Host.Outcome State Fault Refusal :=
  .next (s.accept (immRecord false reg (immOperand8 imm)))

/-- `mov r16, imm16` (R135): w = 1. -/
def execMovR16Imm16 (reg : BitVec 3) (imm : Word) (s : State) : Host.Outcome State Fault Refusal :=
  .next (s.accept (immRecord true reg (immOperand16 imm)))

end Sys2Proof.Machine
end

