-- ==== Sys2Proof/Machine/MovRegMem.lean ====
section
/-! DEFINITION. The register/memory move family, `100010dw` (spec/40_mov_regmem.md). An instruction's semantics is the
decoded record the core returns; the move is not performed (00_scope.md R8). The driver forwards the record and advances. -/

namespace Sys2Proof.Machine

/-- The family's shared effect (R100): the record is accepted. No flag and no state of the core is written (R102). -/
def execMrm (d w : Bool) (f : MrmFields) (s : State) : Host.Outcome State Fault Refusal :=
  .next (s.accept (mrmRecord d w f))

/-- `mov r/m8, r8` (R104): d = 0, w = 0. -/
def execMovRm8R8 (f : MrmFields) (s : State) : Host.Outcome State Fault Refusal := execMrm false false f s

/-- `mov r/m16, r16` (R105): d = 0, w = 1. -/
def execMovRm16R16 (f : MrmFields) (s : State) : Host.Outcome State Fault Refusal := execMrm false true f s

/-- `mov r8, r/m8` (R106): d = 1, w = 0. -/
def execMovR8Rm8 (f : MrmFields) (s : State) : Host.Outcome State Fault Refusal := execMrm true false f s

/-- `mov r16, r/m16` (R107): d = 1, w = 1. -/
def execMovR16Rm16 (f : MrmFields) (s : State) : Host.Outcome State Fault Refusal := execMrm true true f s

end Sys2Proof.Machine
end

