-- ==== Sys2Proof/Machine/Dispatch.lean ====
section
/-! DEFINITION. One arm per constructor of Instr, each one direct call of its meaning. -/

namespace Sys2Proof.Machine

def exec (i : Instr) (s : State) : Host.Outcome State Fault Refusal :=
  match i with
  | .movRm8R8 f => Sys2Proof.Machine.execMovRm8R8 f s
  | .movRm16R16 f => Sys2Proof.Machine.execMovRm16R16 f s
  | .movR8Rm8 f => Sys2Proof.Machine.execMovR8Rm8 f s
  | .movR16Rm16 f => Sys2Proof.Machine.execMovR16Rm16 f s
  | .movR8Imm8 reg imm => Sys2Proof.Machine.execMovR8Imm8 reg imm s
  | .movR16Imm16 reg imm => Sys2Proof.Machine.execMovR16Imm16 reg imm s

end Sys2Proof.Machine
end

