-- ==== Sys2Proof/Machine/Fetch.lean ====
section
/-! DEFINITION. What the driver does at one step, up to running the instruction it decoded (spec/10_state.md R32). -/

namespace Sys2Proof.Machine

/-- What a step finds to do. -/
inductive Fetched where
  /-- the instruction at the driver's offset, to be executed -/
  | run (i : Instr)
  /-- a next state reached without an instruction -/
  | settle (s : State)
  /-- the pass has ended with an error -/
  | halt (f : Fault)
deriving DecidableEq, Repr

/-- One turn of the driver: before the loop it has `bits 16` written (R181); in the loop it tests `pos < len` and makes
one decode call; an error stops the pass (R157). A completed pass stays as it is (log entry 7); a failed one faults (log
entry 6). -/
def fetch (s : State) : Fetched :=
  match s.phase with
  | .idle => .settle s.start
  | .running =>
    if s.pos < s.len then
      match decode s.window with
      | .instr i => .run i
      | .reject r => .settle (s.takeError (errorOfReject s.pos r))
    else .settle s.complete
  | .completed => .settle s
  | .failed e => .halt (faultOfError e)
  | .sourceUnavailable => .halt .sourceUnavailable

end Sys2Proof.Machine
end

