-- ==== Sys2Proof/Machine/Step.lean ====
section
/-! DEFINITION. One step of the machine: one turn of the driver's loop, with one decode call in it at most
(spec/10_state.md R32, 70_reset_and_hazards.md R186). Log entry 1. -/

namespace Sys2Proof.Machine

/-- One step. -/
def step (s : State) : Host.Outcome State Fault Refusal :=
  match fetch s with
  | .run i => exec i s
  | .settle t => .next t
  | .halt f => .fault f

/-- `s` with a table word's instruction where the next step fetches, the pass under way (log entry 5). -/
def State.withFetchWord (s : State) (nbits w : Nat) : State := s.placeAtPos (tableWordBytes nbits w)

end Sys2Proof.Machine
end

