-- ==== Sys2Proof/Machine/Formatter.lean ====
section
/-! DEFINITION. The formatter's contract: the text of each line (spec/30_encoding.md R85 to R91, 10_state.md R30, R31). -/

namespace Sys2Proof.Machine

/-- The separator between two registers, and before a displacement: ` + ` (R87, 90_conflicts.md C2). -/
def plusText : Text := [' ', '+', ' ']

/-- The name of a base/index register. -/
def eaRegText : EaReg → Text
  | .bx => ['b', 'x']
  | .bp => ['b', 'p']
  | .si => ['s', 'i']
  | .di => ['d', 'i']

/-- `EA_TEXT[ea]` (10_state.md R31). -/
def eaText (ea : BitVec 3) : Text := plusText.intercalate ((eaRegs ea).map eaRegText)

/-- A number in decimal, without prefix or suffix (R90). -/
def decimal (n : Nat) : Text := Nat.toDigits 10 n

/-- The displacement term after a base/index expression: none for the value 0 (R87; D7, log entry 11), ` + N`
for a positive one, and the open spelling for a negative one (R90; D8, log entry 9). -/
def dispText (spelling : NegDispText) (disp : Word) : Text :=
  if disp = 0#16 then []
  else if 0 < signed16 disp then plusText ++ decimal (signed16 disp).toNat
  else
    match spelling with
    | .plusNegative => plusText ++ '-' :: decimal (signed16 disp).natAbs
    | .minus => [' ', '-', ' '] ++ decimal (signed16 disp).natAbs

/-- An operand's text under a spelling of negative displacements (R86 to R89). -/
def operandTextWith (spelling : NegDispText) : Operand → Text
  | .reg w i => regName w i
  | .mem _ ea disp => '[' :: (eaText ea ++ dispText spelling disp) ++ [']']
  | .direct _ addr => '[' :: decimal (unsigned16 addr) ++ [']']
  | .imm _ value => decimal (unsigned16 value)

/-- The mnemonic's text: "mov" (R85). -/
def mnemonicText : Mnemonic → Text
  | .mov => ['m', 'o', 'v']

/-- A line's text under a spelling: `bits 16`, or `mov <dest>, <src>` with exactly one space after the mnemonic and the
separator `, ` (R85). -/
def lineTextWith (spelling : NegDispText) : Line → Text
  | .bits16 => ['b', 'i', 't', 's', ' ', '1', '6']
  | .instruction r =>
    mnemonicText r.mnemonic ++ ' ' :: operandTextWith spelling r.dst ++ [',', ' '] ++ operandTextWith spelling r.src

/-- An operand's text. -/
def operandText (o : Operand) : Text := operandTextWith Config.negDispText o

/-- A line's text. -/
def lineText (l : Line) : Text := lineTextWith Config.negDispText l

/-- The program text written so far, a line each (R85). -/
def State.text (s : State) : List Text := s.written.map lineText

end Sys2Proof.Machine
end

