-- ==== Sys2Proof/Machine/Instances.lean ====
section
/-! DEFINITION. Several decoders at once, on one buffer or on different ones (spec/60_exceptions.md R162, R163, 20_memory.md
R46): each instance has its own driver, nothing is shared but the read-only buffers, and any set of instances may step at
once. Log entry 22. -/

namespace Sys2Proof.Machine

/-- One read-only buffer. -/
structure Buffer where
  mem : Memory
  len : Nat
deriving DecidableEq, Repr

/-- One driver's own state, and which of the buffers it decodes. -/
structure DriverState where
  buffer : Nat
  pos : Nat
  phase : Phase
  written : List Line
deriving DecidableEq, Repr

/-- The buffers and the drivers that decode them; two drivers may name one buffer. Neither has an identifier of its own (R162);
a list position names it here. A driver that names no buffer of the list is no instance and never steps. -/
structure Instances where
  buffers : List Buffer
  drivers : List DriverState
deriving DecidableEq, Repr

/-- A lone machine over this buffer with this driver. -/
def DriverState.over (d : DriverState) (b : Buffer) : State :=
  { mem := b.mem, len := b.len, pos := d.pos, phase := d.phase, written := d.written }

/-- A lone machine over the driver's own buffer. -/
def Instances.machine (f : Instances) (d : DriverState) : Option State := f.buffers[d.buffer]?.map d.over

/-- The machine of one instance. -/
def Instances.view (f : Instances) (k : Nat) : Option State := f.drivers[k]?.bind f.machine

/-- The driver's part of a machine over the buffer of this number. -/
def State.driver (s : State) (buffer : Nat) : DriverState :=
  { buffer := buffer, pos := s.pos, phase := s.phase, written := s.written }

/-- One step of a lone machine, a stopped one staying as it is. -/
def State.advance (s : State) : State :=
  match step s with
  | .next t => t
  | .fault _ => s
  | .refused _ => s

/-- A driver after one step of its instance. -/
def Instances.stepDriver (f : Instances) (d : DriverState) : DriverState :=
  match f.machine d with
  | some s => s.advance.driver d.buffer
  | none => d

/-- The named instances take a step at once, each from the state before the round; their drivers change and nothing else. -/
def Instances.stepRound (f : Instances) (round : List Nat) : Instances :=
  { f with drivers := f.drivers.mapIdx fun k d => if round.contains k then f.stepDriver d else d }

/-- One round after another; a schedule of rounds of one instance each is an interleaving. -/
def Instances.runSchedule (f : Instances) (schedule : List (List Nat)) : Instances :=
  schedule.foldl Instances.stepRound f

/-- `n` steps of a lone machine. -/
def State.advanceMany : Nat → State → State
  | 0, s => s
  | n + 1, s => State.advanceMany n s.advance

end Sys2Proof.Machine
end

