-- ==== Sys2Proof/Machine/DecodeCall.lean ====
section
/-! DEFINITION. One decode call, `decode(buf, len, pos)`, from the pseudocode of spec/30_encoding.md R92,
40_mov_regmem.md R100 and 41_mov_imm.md R130, with the offsets it reads in the order it reads them (20_memory.md R47).
A call is a function of the buffer, its length and the offset alone (10_state.md R20, R21). -/

namespace Sys2Proof.Machine

/-- What one decode call does: its result, and the offsets read, first read first. -/
structure Call where
  result : DecodeResult
  reads : List Nat
deriving DecidableEq, Repr

/-- The call ends with a record. -/
def Call.done (reads : List Nat) (r : DecodedInstruction) : Call := { result := .ok r, reads := reads }

/-- `raise E`: the call ends with an error and changes no state (00_scope.md R15). -/
def Call.raise (reads : List Nat) (e : DecodeError) : Call := { result := .err e, reads := reads }

/-- The MRM handler (40_mov_regmem.md R100). -/
def decodeMrm (buf : Memory) (len pos : Nat) (b1 : Byte) : Call :=
  match byteAt buf len (pos + 1) with
  | none => .raise [pos] (.bufferExhausted (pos + 1))
  | some b2 =>
    let record (disp : Word) : DecodedInstruction :=
      mrmRecord (mrmD b1) (mrmW b1) { mod := modField b2, reg := regField b2, rm := rmField b2, disp := disp }
    let n := dlen (modField b2) (rmField b2)
    if n = 0 then .done [pos, pos + 1] (record 0#16)
    else
      match byteAt buf len (pos + 2) with
      | none => .raise [pos, pos + 1] (.bufferExhausted (pos + 2))
      | some lo =>
        if n = 1 then .done [pos, pos + 1, pos + 2] (record (sext16 lo))
        else
          match byteAt buf len (pos + 3) with
          | none => .raise [pos, pos + 1, pos + 2] (.bufferExhausted (pos + 3))
          | some hi => .done [pos, pos + 1, pos + 2, pos + 3] (record (le16 lo hi))

/-- The IMM handler (41_mov_imm.md R130). -/
def decodeImm (buf : Memory) (len pos : Nat) (b1 : Byte) : Call :=
  match byteAt buf len (pos + 1) with
  | none => .raise [pos] (.bufferExhausted (pos + 1))
  | some lo =>
    if immW b1 then
      match byteAt buf len (pos + 2) with
      | none => .raise [pos, pos + 1] (.bufferExhausted (pos + 2))
      | some hi => .done [pos, pos + 1, pos + 2] (immRecord true (immReg b1) (immOperand16 (le16 lo hi)))
    else .done [pos, pos + 1] (immRecord false (immReg b1) (immOperand8 lo))

/-- The top-level decode (30_encoding.md R92), for any offset, past the end too (93_implementation_defined.md U12). -/
def decodeTraced (buf : Memory) (len pos : Nat) : Call :=
  match byteAt buf len pos with
  | none => .raise [] (.bufferExhausted pos)
  | some b1 =>
    match recognize b1 with
    | some .mrm => decodeMrm buf len pos b1
    | some .imm => decodeImm buf len pos b1
    | none => .raise [pos] (.unrecognizedOpcode b1 pos)

/-- The result of a decode call (10_state.md R23, R24). -/
def decodeCall (buf : Memory) (len pos : Nat) : DecodeResult := (decodeTraced buf len pos).result

end Sys2Proof.Machine
end

