-- ==== Sys2Proof/Machine/Flags.lean ====
section
/-! DEFINITION. Status. There are no flags and no control or status registers, and no instruction writes any
(spec/10_state.md R22, 40_mov_regmem.md R102, 41_mov_imm.md R132; D15, log entry 24). The only status the core reports is
the result variant of each call; this file computes its status outputs (10_state.md R28, 60_exceptions.md R151). -/

namespace Sys2Proof.Machine

/-- `ok`: 1 exactly on a record (10_state.md R28). -/
def statusOk : DecodeResult → BitVec 1
  | .ok _ => 1#1
  | .err _ => 0#1

/-- `err_kind`: 00 on a record, 01 unrecognized opcode, 10 buffer exhausted; 11 is never driven (10_state.md R28). -/
def statusErrKind : DecodeResult → BitVec 2
  | .ok _ => 0b00#2
  | .err (.unrecognizedOpcode _ _) => 0b01#2
  | .err (.bufferExhausted _) => 0b10#2

/-- `err_off`: the offset from `pos` of the byte the error names (10_state.md R28, 60_exceptions.md R151). -/
def statusErrOff (pos : Nat) : DecodeResult → BitVec 2
  | .ok _ => 0#2
  | .err (.unrecognizedOpcode _ offset) => BitVec.ofNat 2 (offset - pos)
  | .err (.bufferExhausted offset) => BitVec.ofNat 2 (offset - pos)

/-- `err_byte`: byte1 for an unrecognized opcode, else 0 (10_state.md R28). -/
def statusErrByte : DecodeResult → Byte
  | .ok _ => 0#8
  | .err (.unrecognizedOpcode byte _) => byte
  | .err (.bufferExhausted _) => 0#8

end Sys2Proof.Machine
end

