-- ==== Sys2Proof/Machine/Ports.lean ====
section
/-! DEFINITION. The port-level form of the core: the fetch window, the output ports, the operand encoding, and the
combinational core between them (spec/10_state.md R27 to R29, 30_encoding.md R65, R80). The layout is the spec's own
(D4; log entry 13). -/

namespace Sys2Proof.Machine

/-- The input ports (10_state.md R27). -/
structure Window where
  win0 : Byte
  win1 : Byte
  win2 : Byte
  win3 : Byte
  avail : BitVec 3
deriving DecidableEq, Repr

/-- The window byte `win_i`. -/
def Window.win (v : Window) : Nat → Byte
  | 0 => v.win0
  | 1 => v.win1
  | 2 => v.win2
  | _ => v.win3

/-- The output ports (10_state.md R28). -/
structure Ports where
  ok : BitVec 1
  mnem : BitVec 1
  length : BitVec 3
  dst : BitVec 22
  src : BitVec 22
  errKind : BitVec 2
  errOff : BitVec 2
  errByte : Byte
deriving DecidableEq, Repr

/-- The window a buffer, a length and an offset drive; a byte that does not exist is any value (10_state.md R27). -/
def driveWindow (buf : Memory) (len pos : Nat) (anyValue : Nat → Byte) : Window :=
  let win (i : Nat) : Byte := if i < available len pos then buf.read (pos + i) else anyValue i
  { win0 := win 0, win1 := win 1, win2 := win 2, win3 := win 3, avail := BitVec.ofNat 3 (available len pos) }

/-! ### Operand encoding, 22 bits: kind, w, idx, val (10_state.md R29) -/

/-- The four fields of an operand code in order. -/
def packOperand (kind : BitVec 2) (w : Bool) (idx : BitVec 3) (val : Word) : BitVec 22 :=
  kind ++ BitVec.ofBool w ++ idx ++ val

/-- The operand encoding (10_state.md R29). -/
def encodeOperand : Operand → BitVec 22
  | .reg w i => packOperand 0b00#2 w i 0#16
  | .mem w ea disp => packOperand 0b01#2 w ea disp
  | .direct w addr => packOperand 0b10#2 w 0b110#3 addr
  | .imm w value => packOperand 0b11#2 w 0b000#3 value

/-- The operand a code stands for, by its `kind` (10_state.md R29): what a consumer of the port reads. -/
def readOperand (code : BitVec 22) : Operand :=
  let kind := code.extractLsb' 20 2
  let w := code.getLsbD 19
  let idx := code.extractLsb' 16 3
  let val := code.extractLsb' 0 16
  if kind = 0b00#2 then .reg w idx
  else if kind = 0b01#2 then .mem w idx val
  else if kind = 0b10#2 then .direct w val
  else .imm w val

/-! ### Outputs of a result (10_state.md R28) -/

/-- The code of the mnemonic: 0 is `MOV`. -/
def mnemCode : Mnemonic → BitVec 1
  | .mov => 0#1

/-- The ports a call at `pos` drives. On an error `length`, `dst` and `src` are 0 (60_exceptions.md R156). -/
def portsOf (pos : Nat) (res : DecodeResult) : Ports :=
  { ok := statusOk res
    mnem := match res with | .ok r => mnemCode r.mnemonic | .err _ => 0#1
    length := match res with | .ok r => BitVec.ofNat 3 r.length | .err _ => 0#3
    dst := match res with | .ok r => encodeOperand r.dst | .err _ => 0#22
    src := match res with | .ok r => encodeOperand r.src | .err _ => 0#22
    errKind := statusErrKind res
    errOff := statusErrOff pos res
    errByte := statusErrByte res }

/-! ### The combinational core (10_state.md R27; 30_encoding.md R65, R80) -/

/-- The number of displacement bytes as the window shows it. -/
def Window.dispLen (v : Window) : Nat := dlen (modField v.win1) (rmField v.win1)

/-- `need(i)`: the fields read so far say that byte `i` is needed (30_encoding.md R80). -/
def Window.need (v : Window) : Nat → Bool
  | 0 => true
  | 1 => matchMrm v.win0 || matchImm v.win0
  | 2 => (matchMrm v.win0 && decide (1 ≤ v.dispLen)) || (matchImm v.win0 && immW v.win0)
  | 3 => matchMrm v.win0 && decide (v.dispLen = 2)
  | _ => false

/-- `need(i) && !(i < avail)` (30_encoding.md R80). -/
def Window.missing (v : Window) (i : Nat) : Bool := v.need i && !decide (i < v.avail.toNat)

/-- The smallest byte that is needed and missing. -/
def Window.firstMissing (v : Window) : Option Nat := [0, 1, 2, 3].find? v.missing

/-- The record the window's bytes stand for, meaningful only where no needed byte is missing. -/
def Window.record (v : Window) : DecodedInstruction :=
  if matchMrm v.win0 then
    mrmRecord (mrmD v.win0) (mrmW v.win0)
      { mod := modField v.win1, reg := regField v.win1, rm := rmField v.win1
        disp := displacement v.dispLen v.win2 v.win3 }
  else if immW v.win0 then immRecord true (immReg v.win0) (immOperand16 (le16 v.win1 v.win2))
  else immRecord false (immReg v.win0) (immOperand8 v.win1)

/-- Error ports (10_state.md R28). -/
def errPorts (kind off : BitVec 2) (byte : Byte) : Ports :=
  { ok := 0#1, mnem := 0#1, length := 0#3, dst := 0#22, src := 0#22, errKind := kind, errOff := off, errByte := byte }

/-- The core as combinational logic from its input ports to its output ports. -/
def portCore (v : Window) : Ports :=
  match v.firstMissing with
  | some i => errPorts 0b10#2 (BitVec.ofNat 2 i) 0#8
  | none =>
    if matchMrm v.win0 || matchImm v.win0 then
      { ok := 1#1
        mnem := mnemCode v.record.mnemonic
        length := BitVec.ofNat 3 v.record.length
        dst := encodeOperand v.record.dst
        src := encodeOperand v.record.src
        errKind := 0b00#2, errOff := 0#2, errByte := 0#8 }
    else errPorts 0b01#2 0#2 v.win0

end Sys2Proof.Machine
end

