-- ==== Sys2Proof/Machine/Driver.lean ====
section
/-! DEFINITION. The driver's loop as the spec writes it (spec/10_state.md R32), over decode calls, and how a pass ends
(60_exceptions.md R157, R158). The machine's step is one turn of this loop (log entry 1). -/

namespace Sys2Proof.Machine

/-- How a pass stands: the offset, the lines written, the phase, and the number of decode calls made. -/
structure PassEnd where
  pos : Nat
  written : List Line
  phase : Phase
  calls : Nat
deriving DecidableEq, Repr

/-- `while pos < len`, at most `fuel` loop tests. A pass out of fuel is still `running`. -/
def passLoop (buf : Memory) (len : Nat) : Nat → PassEnd → PassEnd
  | 0, p => p
  | fuel + 1, p =>
    if p.pos < len then
      match decodeCall buf len p.pos with
      | .ok r =>
        passLoop buf len fuel
          { pos := p.pos + r.length, written := p.written ++ [.instruction r], phase := .running, calls := p.calls + 1 }
      | .err e => { p with phase := .failed e, calls := p.calls + 1 }
    else { p with phase := .completed }

/-- A whole pass over a buffer: `pos <- 0`, emit `bits 16`, then the loop (R32). More loop tests than `len` are never
needed, since each successful call advances by 2 at least (70_reset_and_hazards.md R185). -/
def pass (buf : Memory) (len : Nat) : PassEnd :=
  passLoop buf len (len + 1) { pos := 0, written := [.bits16], phase := .running, calls := 0 }

/-- The exit status of the command line: 0 on completing the buffer, 1 on any fatal error, none while the pass is not
over (60_exceptions.md R158; for `BufferExhausted` the spec's own choice D12, log entry 14). -/
def exitStatus : Phase → Option Nat
  | .idle => none
  | .running => none
  | .completed => some 0
  | .failed _ => some 1
  | .sourceUnavailable => some 1

/-- The diagnostic message that goes with exit status 1 (60_exceptions.md R158). Its wording is open (log entry 16). -/
def diagnostic : Phase → Option Text
  | .idle => none
  | .running => none
  | .completed => none
  | .failed (.unrecognizedOpcode byte offset) => some (Config.unrecognizedOpcodeDiagnostic byte offset)
  | .failed (.bufferExhausted offset) => Config.bufferExhaustedDiagnostic offset
  | .sourceUnavailable => some Config.sourceUnavailableDiagnostic

/-- The pass is over (R32, 60_exceptions.md R157). -/
def Phase.ended : Phase → Bool
  | .idle => false
  | .running => false
  | .completed => true
  | .failed _ => true
  | .sourceUnavailable => true

end Sys2Proof.Machine
end

