-- ==== Sys2Proof/Safety.lean ====
section
/-! DEFINITION. What a sound state and a safe run are, in the terms the statements use. -/

namespace Sys2Proof.Machine

/-- The buffer is in canonical form and lists nothing outside itself (20_memory.md R40). -/
def State.BufferOk (s : State) : Prop := s.mem.wf = true ∧ s.mem.within s.len = true

/-- The bytes the written instruction lines consumed, in sum. -/
def consumedBy : List Line → Nat
  | [] => 0
  | .bits16 :: ls => consumedBy ls
  | .instruction r :: ls => r.length + consumedBy ls

/-- A record has a length of 2, 3 or 4 bytes (10_state.md R25). -/
def Line.lengthOk : Line → Bool
  | .bits16 => false
  | .instruction r => r.length == 2 || r.length == 3 || r.length == 4

/-- What has been written fits the phase: nothing before the pass begins, `bits 16` first and once, then only
instruction lines (30_encoding.md R85, 70_reset_and_hazards.md R181, 60_exceptions.md R154). -/
def WrittenOk (phase : Phase) (written : List Line) : Prop :=
  match phase with
  | .idle => written = []
  | .sourceUnavailable => written = []
  | .running => ∃ ls, written = .bits16 :: ls ∧ ls.all Line.lengthOk = true
  | .completed => ∃ ls, written = .bits16 :: ls ∧ ls.all Line.lengthOk = true
  | .failed _ => ∃ ls, written = .bits16 :: ls ∧ ls.all Line.lengthOk = true

/-- A pass that has ended ended for a reason its state shows: at the end of the buffer, or with the error a decode call
at the offset returns (10_state.md R32, 60_exceptions.md R157, R160). -/
def EndOk (s : State) : Prop :=
  match s.phase with
  | .idle => s.pos = 0
  | .running => True
  | .completed => s.pos = s.len
  | .failed e => s.pos < s.len ∧ decodeCall s.mem s.len s.pos = .err e
  | .sourceUnavailable => s.pos = 0

/-- The invariant of a pass: the buffer is sound, the offset stays in it (10_state.md R33), the lines fit the phase, the
offset is the sum of the consumed lengths (70_reset_and_hazards.md R183), and an end has its reason. -/
structure State.Inv (s : State) : Prop where
  buffer : s.BufferOk
  bounded : s.pos ≤ s.len
  lines : WrittenOk s.phase s.written
  consumed : consumedBy s.written = s.pos
  reason : EndOk s

/-- A machine ready to begin a pass over its buffer (70_reset_and_hazards.md R181, R182). -/
def State.Ready (s : State) : Prop := s.phase = .idle ∧ s.pos = 0 ∧ s.written = []

end Sys2Proof.Machine
end

