-- ==== Sys2Proof/Certificates/Slice0/Obligations.lean ====
section
/-! DEFINITION. The statements for the provers. Each docstring names the rule of spec/ it formalises. -/

open Sys2Proof Sys2Proof.Machine

/-! ### The recognizer -/

/-- 30_encoding.md R65: an exact comparison after masking, in trial order; the two comparators of the hardware form; and
`NONE` raises `UnrecognizedOpcode`. (That the 5-bit and 7-bit masks match nothing is the spec's decision D13, log entry 18; that
the error carries byte1 and `pos` is D10, log entry 20.) -/
def Obligations.RecognizerComparesAfterMasking : Prop :=
  (∀ b1 : Byte, recognize b1 =
    if b1 &&& 0xF0#8 = 0xB0#8 then some .imm
    else if b1 &&& 0xFC#8 = 0x88#8 then some .mrm
    else none) ∧
  (∀ b1 : Byte, matchImm b1 = (b1.extractLsb' 4 4 == 0b1011#4) ∧ (recognize b1 = some .imm ↔ matchImm b1 = true)) ∧
  (∀ b1 : Byte, matchMrm b1 = (b1.extractLsb' 2 6 == 0b100010#6) ∧ (recognize b1 = some .mrm ↔ matchMrm b1 = true)) ∧
  (∀ b1 : Byte, recognize b1 = none ↔ (!matchImm b1 && !matchMrm b1) = true) ∧
  (∀ (buf : Memory) (len pos : Nat), pos < len → recognize (buf.read pos) = none →
    decodeCall buf len pos = .err (.unrecognizedOpcode (buf.read pos) pos))

/-- 30_encoding.md R66: the patterns share no byte; the trial order changes no result; exactly 20 bytes are recognized and
236 are not; which rows they select. (That the 5-bit and 7-bit masks match nothing is the spec's decision D13, log entry 18.) -/
def Obligations.RecognizedSetIsTwentyBytes : Prop :=
  (∀ b1 : Byte, ¬ (b1 &&& 0xF0#8 = 0xB0#8 ∧ b1 &&& 0xFC#8 = 0x88#8)) ∧
  (∀ table : List Candidate, table.Perm recognizerTable → ∀ b1, recognizeIn table b1 = recognize b1) ∧
  (∀ b1 : Byte, recognize b1 = some .mrm ↔ b1 ∈ [0x88#8, 0x89#8, 0x8A#8, 0x8B#8]) ∧
  (∀ b1 : Byte, recognize b1 = some .imm ↔ 0xB0 ≤ b1.toNat ∧ b1.toNat ≤ 0xBF) ∧
  ((List.range 256).countP fun n => (recognize (BitVec.ofNat 8 n)).isSome) = 20 ∧
  ((List.range 256).countP fun n => (recognize (BitVec.ofNat 8 n)).isNone) = 236 ∧
  (∀ (b1 : Byte) (rest : List Byte) (i : Instr), decode (b1 :: rest) = .instr i →
    (b1 = 0x88#8 ∧ ∃ f, i = .movRm8R8 f) ∨ (b1 = 0x89#8 ∧ ∃ f, i = .movRm16R16 f) ∨
    (b1 = 0x8A#8 ∧ ∃ f, i = .movR8Rm8 f) ∨ (b1 = 0x8B#8 ∧ ∃ f, i = .movR16Rm16 f) ∨
    (0xB0 ≤ b1.toNat ∧ b1.toNat ≤ 0xB7 ∧ ∃ reg imm, i = .movR8Imm8 reg imm) ∨
    (0xB8 ≤ b1.toNat ∧ b1.toNat ≤ 0xBF ∧ ∃ reg imm, i = .movR16Imm16 reg imm))

/-- 30_encoding.md R83: no prefix is recognized; each raises `UnrecognizedOpcode` as byte1, whatever follows it. (Which bytes
are the 8086's prefixes is the spec's general knowledge, 93_implementation_defined.md G3.) -/
def Obligations.PrefixBytesAreUnrecognized : Prop :=
  ∀ (buf : Memory) (len pos : Nat), pos < len →
    buf.read pos ∈ [0x26#8, 0x2E#8, 0x36#8, 0x3E#8, 0xF0#8, 0xF2#8, 0xF3#8] →
    decodeCall buf len pos = .err (.unrecognizedOpcode (buf.read pos) pos)

/-! ### One decode call -/

/-- 40_mov_regmem.md R100, R101: the MRM handler's result, its errors and the bytes it reads, for every byte1 and byte2. (The
`Direct` form is the spec's decision D6, log entry 10; the errors' payload is D10, log entry 20.) -/
def Obligations.MrmHandlerResult : Prop :=
  ∀ (buf : Memory) (len pos : Nat), pos < len → recognize (buf.read pos) = some .mrm →
    let b1 := buf.read pos
    let b2 := buf.read (pos + 1)
    let lo := buf.read (pos + 2)
    let hi := buf.read (pos + 3)
    let w := b1.getLsbD 0
    let mod := b2.extractLsb' 6 2
    let reg := b2.extractLsb' 3 3
    let rm := b2.extractLsb' 0 3
    let n := if mod = 0b11#2 then 0
      else if mod = 0b00#2 ∧ rm = 0b110#3 then 2
      else if mod = 0b00#2 then 0
      else if mod = 0b01#2 then 1
      else 2
    let disp : Word := if n = 0 then 0#16 else if n = 1 then lo.signExtend 16 else hi ++ lo
    let rmop : Operand := if mod = 0b11#2 then .reg w rm
      else if mod = 0b00#2 ∧ rm = 0b110#3 then .direct w disp
      else .mem w rm disp
    decodeTraced buf len pos =
      if len ≤ pos + 1 then { result := .err (.bufferExhausted (pos + 1)), reads := [pos] }
      else if 1 ≤ n ∧ len ≤ pos + 2 then { result := .err (.bufferExhausted (pos + 2)), reads := [pos, pos + 1] }
      else if n = 2 ∧ len ≤ pos + 3 then
        { result := .err (.bufferExhausted (pos + 3)), reads := [pos, pos + 1, pos + 2] }
      else
        { result := .ok
            { mnemonic := .mov
              dst := if b1.getLsbD 1 then .reg w reg else rmop
              src := if b1.getLsbD 1 then rmop else .reg w reg
              length := 2 + n }
          reads := List.range' pos (2 + n) }

/-- 41_mov_imm.md R130, R131: the IMM handler's result, its errors and the bytes it reads. (That `BufferExhausted` carries the
missing offset is the spec's decision D10, log entry 20.) -/
def Obligations.ImmHandlerResult : Prop :=
  ∀ (buf : Memory) (len pos : Nat), pos < len → recognize (buf.read pos) = some .imm →
    let b1 := buf.read pos
    let lo := buf.read (pos + 1)
    let hi := buf.read (pos + 2)
    let reg := b1.extractLsb' 0 3
    decodeTraced buf len pos =
      if len ≤ pos + 1 then { result := .err (.bufferExhausted (pos + 1)), reads := [pos] }
      else if b1.getLsbD 3 = true ∧ len ≤ pos + 2 then
        { result := .err (.bufferExhausted (pos + 2)), reads := [pos, pos + 1] }
      else if b1.getLsbD 3 = true then
        { result := .ok { mnemonic := .mov, dst := .reg true reg, src := .imm true (hi ++ lo), length := 3 }
          reads := [pos, pos + 1, pos + 2] }
      else
        { result := .ok { mnemonic := .mov, dst := .reg false reg, src := .imm false (lo.setWidth 16), length := 2 }
          reads := [pos, pos + 1] }

/-- 10_state.md R25: a record's mnemonic is `MOV` and its length is 2, 3 or 4. -/
def Obligations.DecodedRecordShape : Prop :=
  ∀ (buf : Memory) (len pos : Nat) (r : DecodedInstruction), decodeCall buf len pos = .ok r →
    r.mnemonic = .mov ∧ (r.length = 2 ∨ r.length = 3 ∨ r.length = 4)

/-- 30_encoding.md R79: the consumed length on success, by addressing mode and by `w`. -/
def Obligations.ConsumedLengthByForm : Prop :=
  ∀ (buf : Memory) (len pos : Nat) (r : DecodedInstruction), decodeCall buf len pos = .ok r →
    (recognize (buf.read pos) = some .mrm →
      let mod := modField (buf.read (pos + 1))
      let rm := rmField (buf.read (pos + 1))
      r.length = 2 + dlen mod rm ∧
      (mod = 0b11#2 → r.length = 2) ∧
      (mod = 0b00#2 → rm = 0b110#3 → r.length = 4) ∧
      (mod = 0b00#2 → rm ≠ 0b110#3 → r.length = 2) ∧
      (mod = 0b01#2 → r.length = 3) ∧
      (mod = 0b10#2 → r.length = 4)) ∧
    (recognize (buf.read pos) = some .imm → r.length = 2 + (immW (buf.read pos)).toNat)

/-- 30_encoding.md R75: the immediate is the exact little-endian reconstruction, unsigned, and the length goes with `w`. (The
unsigned reading is the spec's decision D9, log entry 12.) -/
def Obligations.ImmediateIsUnsignedLittleEndian : Prop :=
  ∀ (buf : Memory) (len pos : Nat) (r : DecodedInstruction), recognize (buf.read pos) = some .imm →
    decodeCall buf len pos = .ok r →
    if immW (buf.read pos) then
      r.length = 3 ∧ ∃ v, r.src = .imm true v ∧
        unsigned16 v = (buf.read (pos + 2)).toNat * 256 + (buf.read (pos + 1)).toNat ∧ unsigned16 v ≤ 65535
    else
      r.length = 2 ∧ ∃ v, r.src = .imm false v ∧
        unsigned16 v = (buf.read (pos + 1)).toNat ∧ unsigned16 v ≤ 255

/-- 30_encoding.md R74: the displacement's sign and range, by addressing mode; the direct address is unsigned
(the spec's decision D6, log entry 10). -/
def Obligations.DisplacementSignAndRange : Prop :=
  (∀ (rm : BitVec 3) (lo hi : Byte),
    let v := displacement (dlen 0b01#2 rm) lo hi
    signed16 v = (if lo.toNat ≤ 0x7F then (lo.toNat : Int) else (lo.toNat : Int) - 256) ∧
    -128 ≤ signed16 v ∧ signed16 v ≤ 127) ∧
  (∀ (rm : BitVec 3) (lo hi : Byte),
    let v := displacement (dlen 0b10#2 rm) lo hi
    v = hi ++ lo ∧ v.signExtend 16 = v ∧ -32768 ≤ signed16 v ∧ signed16 v ≤ 32767) ∧
  (∀ (w : Bool) (lo hi : Byte),
    let v := displacement (dlen 0b00#2 0b110#3) lo hi
    v = hi ++ lo ∧ rmOperand w 0b00#2 0b110#3 v = .direct w v ∧ unsigned16 v = hi.toNat * 256 + lo.toNat ∧
    unsigned16 v ≤ 65535)

/-- 30_encoding.md R78: `mod == 00` with `rm == 110` is the direct address of byte3 and byte4, four bytes long, and not the
`bp` entry of the table: one side is it, the other is the `reg` register (the spec's decision D6, log entry 10). -/
def Obligations.DirectAddressCase : Prop :=
  ∀ (buf : Memory) (len pos : Nat), pos + 4 ≤ len → recognize (buf.read pos) = some .mrm →
    modField (buf.read (pos + 1)) = 0b00#2 → rmField (buf.read (pos + 1)) = 0b110#3 →
    let w := mrmW (buf.read pos)
    let addr : Word := buf.read (pos + 3) ++ buf.read (pos + 2)
    ∃ r, decodeCall buf len pos = .ok r ∧ r.length = 4 ∧
      (if mrmD (buf.read pos) then r.src else r.dst) = .direct w addr ∧
      (if mrmD (buf.read pos) then r.dst else r.src) = .reg w (regField (buf.read (pos + 1))) ∧
      ∀ w' ea disp, r.dst ≠ .mem w' ea disp ∧ r.src ≠ .mem w' ea disp

/-- 30_encoding.md R84: byte1 and at most byte2 determine the length; for IMM, byte1 alone. -/
def Obligations.LengthFixedByFirstTwoBytes : Prop :=
  ∀ (buf buf' : Memory) (len len' pos pos' : Nat) (r r' : DecodedInstruction),
    decodeCall buf len pos = .ok r → decodeCall buf' len' pos' = .ok r' → buf'.read pos' = buf.read pos →
    (recognize (buf.read pos) = some .imm → r'.length = r.length) ∧
    (buf'.read (pos' + 1) = buf.read (pos + 1) → r'.length = r.length)

/-- 60_exceptions.md R155: the result in the core's reading order, and a record where none of the five applies (every field
value is legal, 30_encoding.md R82). (What the errors carry is the spec's decision D10, log entry 20.) -/
def Obligations.ErrorPrecedence : Prop :=
  ∀ (buf : Memory) (len pos : Nat),
    let fam := recognize (buf.read pos)
    let n := dlen (modField (buf.read (pos + 1))) (rmField (buf.read (pos + 1)))
    let needs3 := (fam = some .mrm ∧ 1 ≤ n) ∨ (fam = some .imm ∧ immW (buf.read pos) = true)
    let needs4 := fam = some .mrm ∧ n = 2
    (len ≤ pos → decodeCall buf len pos = .err (.bufferExhausted pos)) ∧
    (pos < len → fam = none → decodeCall buf len pos = .err (.unrecognizedOpcode (buf.read pos) pos)) ∧
    (pos < len → fam ≠ none → len ≤ pos + 1 → decodeCall buf len pos = .err (.bufferExhausted (pos + 1))) ∧
    (pos + 1 < len → needs3 → len ≤ pos + 2 → decodeCall buf len pos = .err (.bufferExhausted (pos + 2))) ∧
    (pos + 2 < len → needs4 → len ≤ pos + 3 → decodeCall buf len pos = .err (.bufferExhausted (pos + 3))) ∧
    (pos + 1 < len → fam ≠ none → (needs3 → pos + 2 < len) → (needs4 → pos + 3 < len) →
      ∃ r, decodeCall buf len pos = .ok r)

/-- 60_exceptions.md R152, 30_encoding.md R81: `UnrecognizedOpcode` exactly where byte1 exists and is none of the 20 values,
with byte1 and `pos`, no further byte read, whatever lies after byte1. (That there are no more than 20 is the spec's decision
D13, log entry 18; that the error carries byte1 and `pos` is D10, log entry 20.) -/
def Obligations.UnrecognizedOpcodeIsExact : Prop :=
  ∀ (buf : Memory) (len pos : Nat) (b : Byte) (offset : Nat),
    (decodeCall buf len pos = .err (.unrecognizedOpcode b offset) ↔
      pos < len ∧ b = buf.read pos ∧ offset = pos ∧
      ¬ (0x88 ≤ b.toNat ∧ b.toNat ≤ 0x8B) ∧ ¬ (0xB0 ≤ b.toNat ∧ b.toNat ≤ 0xBF)) ∧
    (decodeCall buf len pos = .err (.unrecognizedOpcode b offset) → (decodeTraced buf len pos).reads = [pos])

/-- 30_encoding.md R80, 60_exceptions.md R153: no offset at or past the end is read, and `BufferExhausted` names the first
needed offset that is missing, every offset before it having been read. (That it carries an offset is the spec's decision D10,
log entry 20.) -/
def Obligations.BoundsCheckGuardsEveryRead : Prop :=
  ∀ (buf : Memory) (len pos : Nat),
    (∀ p ∈ (decodeTraced buf len pos).reads, p < len) ∧
    (∀ offset, decodeCall buf len pos = .err (.bufferExhausted offset) →
      pos ≤ offset ∧ offset ≤ pos + 3 ∧ len ≤ offset ∧
      (decodeTraced buf len pos).reads = List.range' pos (offset - pos))

/-- 20_memory.md R47: a call reads `pos .. pos+k-1` in increasing order, with `k` by its result, and the result depends on
no other byte, and on the length only as far as those reads and the missing offset need. -/
def Obligations.CallReadsExactlyItsBytes : Prop :=
  ∀ (buf : Memory) (len pos : Nat),
    ((decodeTraced buf len pos).reads =
      List.range' pos (match decodeCall buf len pos with
        | .ok r => r.length
        | .err (.unrecognizedOpcode _ _) => 1
        | .err (.bufferExhausted offset) => offset - pos)) ∧
    (∀ (buf' : Memory) (len' : Nat),
      (∀ p ∈ (decodeTraced buf len pos).reads, p < len' ∧ buf'.read p = buf.read p) →
      (∀ offset, decodeCall buf len pos = .err (.bufferExhausted offset) → len' ≤ offset) →
      decodeTraced buf' len' pos = decodeTraced buf len pos)

/-- 10_state.md R21, 95_test_vectors.md V-IDEM: the same bytes, wherever they stand in whatever buffer, give the same record
and the same ports. -/
def Obligations.DecodeIsPositionIndependent : Prop :=
  ∀ (buf buf' : Memory) (len len' pos pos' : Nat), windowBytes buf len pos = windowBytes buf' len' pos' →
    portsOf pos (decodeCall buf len pos) = portsOf pos' (decodeCall buf' len' pos') ∧
    ∀ r, decodeCall buf len pos = .ok r → decodeCall buf' len' pos' = .ok r

/-- 40_mov_regmem.md R103: redundant register encodings agree, `reg == rm` is no special case, and with a memory mode `d`
says which side the memory operand is. -/
def Obligations.RegisterMemoryCornerCases : Prop :=
  (∀ (w : Bool) (a b : BitVec 3),
    mrmRecord false w { mod := 0b11#2, reg := a, rm := b, disp := 0#16 } =
      mrmRecord true w { mod := 0b11#2, reg := b, rm := a, disp := 0#16 }) ∧
  (∀ (d w : Bool) (a : BitVec 3),
    let r := mrmRecord d w { mod := 0b11#2, reg := a, rm := a, disp := 0#16 }
    r.dst = .reg w a ∧ r.src = .reg w a) ∧
  (∀ (w : Bool) (f : MrmFields), f.mod ≠ 0b11#2 →
    (mrmRecord false w f).src = .reg w f.reg ∧ (mrmRecord true w f).dst = .reg w f.reg ∧
    (mrmRecord false w f).dst = (mrmRecord true w f).src ∧ ∀ w' i, (mrmRecord false w f).dst ≠ .reg w' i)

/-! ### Ports -/

/-- 10_state.md R27 to R29: the combinational core, driven by any buffer, length and offset and with any value on the window
bytes that do not exist, drives the ports of the decode call's result. (The port
layout is the spec's decision D4, log entry 13.) -/
def Obligations.PortCoreImplementsDecodeCall : Prop :=
  ∀ (buf : Memory) (len pos : Nat) (anyValue : Nat → Byte),
    portCore (driveWindow buf len pos anyValue) = portsOf pos (decodeCall buf len pos)

/-- 10_state.md R27, 20_memory.md R47: no output depends on a window byte at or past the `k` the result shows. -/
def Obligations.PortsIgnoreUnneededBytes : Prop :=
  ∀ v v' : Window, v'.avail = v.avail →
    (∀ i, i < (if (portCore v).ok = 1#1 then (portCore v).length.toNat
        else if (portCore v).errKind = 0b01#2 then 1 else (portCore v).errOff.toNat) → v'.win i = v.win i) →
    portCore v' = portCore v

/-- 10_state.md R28, 60_exceptions.md R156: what the ports hold on a record and on an error: for every input of the core by the
`ok` it drives; as the ports of any result; and on the window of any buffer, length and offset, by the result of the decode
call there. (Decision D4, log entry 13; what an error carries is D10, log entry 20.) -/
def Obligations.PortOutputsByVariant : Prop :=
  (∀ v : Window,
    let p := portCore v
    p.mnem = 0#1 ∧ p.errKind ≠ 0b11#2 ∧
    (p.ok = 1#1 → (p.length = 2#3 ∨ p.length = 3#3 ∨ p.length = 4#3) ∧
      p.errKind = 0b00#2 ∧ p.errOff = 0#2 ∧ p.errByte = 0#8) ∧
    (p.ok = 0#1 → p.length = 0#3 ∧ p.dst = 0#22 ∧ p.src = 0#22 ∧
      ((p.errKind = 0b01#2 ∧ p.errOff = 0#2 ∧ p.errByte = v.win0) ∨ (p.errKind = 0b10#2 ∧ p.errByte = 0#8)))) ∧
  (∀ (pos : Nat) (r : DecodedInstruction), portsOf pos (.ok r) =
    { ok := 1#1, mnem := 0#1, length := BitVec.ofNat 3 r.length, dst := encodeOperand r.dst, src := encodeOperand r.src
      errKind := 0b00#2, errOff := 0#2, errByte := 0#8 }) ∧
  (∀ (pos offset : Nat) (byte : Byte), portsOf pos (.err (.unrecognizedOpcode byte offset)) =
    { ok := 0#1, mnem := 0#1, length := 0#3, dst := 0#22, src := 0#22
      errKind := 0b01#2, errOff := BitVec.ofNat 2 (offset - pos), errByte := byte }) ∧
  (∀ pos offset : Nat, portsOf pos (.err (.bufferExhausted offset)) =
    { ok := 0#1, mnem := 0#1, length := 0#3, dst := 0#22, src := 0#22
      errKind := 0b10#2, errOff := BitVec.ofNat 2 (offset - pos), errByte := 0#8 }) ∧
  (∀ (buf : Memory) (len pos : Nat) (anyValue : Nat → Byte),
    let p := portCore (driveWindow buf len pos anyValue)
    (∀ r, decodeCall buf len pos = .ok r →
      p.ok = 1#1 ∧ p.length.toNat = r.length ∧ p.dst = encodeOperand r.dst ∧ p.src = encodeOperand r.src) ∧
    (∀ byte offset, decodeCall buf len pos = .err (.unrecognizedOpcode byte offset) →
      p.ok = 0#1 ∧ p.errKind = 0b01#2 ∧ p.errOff.toNat = offset - pos ∧ p.errByte = byte) ∧
    (∀ offset, decodeCall buf len pos = .err (.bufferExhausted offset) →
      p.ok = 0#1 ∧ p.errKind = 0b10#2 ∧ p.errOff.toNat = offset - pos ∧ p.errByte = 0#8))

/-- 10_state.md R29: the four fields of the operand code, and that the code determines the operand. (Decision D4, log entry
13.) -/
def Obligations.OperandCodeLayout : Prop :=
  (∀ (kind : BitVec 2) (w : Bool) (idx : BitVec 3) (val : Word),
    let code := packOperand kind w idx val
    code.extractLsb' 20 2 = kind ∧ code.getLsbD 19 = w ∧ code.extractLsb' 16 3 = idx ∧ code.extractLsb' 0 16 = val) ∧
  (∀ (w : Bool) (i : BitVec 3), encodeOperand (.reg w i) = packOperand 0b00#2 w i 0x0000#16) ∧
  (∀ (w : Bool) (ea : BitVec 3) (disp : Word), encodeOperand (.mem w ea disp) = packOperand 0b01#2 w ea disp) ∧
  (∀ (w : Bool) (addr : Word), encodeOperand (.direct w addr) = packOperand 0b10#2 w 0b110#3 addr) ∧
  (∀ (w : Bool) (value : Word), encodeOperand (.imm w value) = packOperand 0b11#2 w 0b000#3 value) ∧
  (∀ o : Operand, readOperand (encodeOperand o) = o)

/-! ### Text -/

/-- 10_state.md R30, R31: the tables' entries in index order. (11 register names are not the source's: D5, log entry 8.) -/
def Obligations.RegisterAndAddressTables : Prop :=
  ((List.range 8).map fun i => String.ofList (regName false (BitVec.ofNat 3 i))) =
    ["al", "cl", "dl", "bl", "ah", "ch", "dh", "bh"] ∧
  ((List.range 8).map fun i => String.ofList (regName true (BitVec.ofNat 3 i))) =
    ["ax", "cx", "dx", "bx", "sp", "bp", "si", "di"] ∧
  ((List.range 8).map fun i => String.ofList (eaText (BitVec.ofNat 3 i))) =
    ["bx + si", "bx + di", "bp + si", "bp + di", "si", "di", "bp", "bx"]

/-- 30_encoding.md R86 to R90: the text of each operand form; a negative displacement under either candidate spelling; and the
text of the program's operands is under one of the two, the same for all.
(Decisions D6, D7, D8, D9; log entries 9 to 12.) -/
def Obligations.OperandRendering : Prop :=
  (∀ (sp : NegDispText) (w : Bool) (i : BitVec 3), operandTextWith sp (.reg w i) = regName w i) ∧
  (∀ (sp : NegDispText) (w : Bool) (ea : BitVec 3),
    operandTextWith sp (.mem w ea 0#16) = ['['] ++ eaText ea ++ [']']) ∧
  (∀ (sp : NegDispText) (w : Bool) (ea : BitVec 3) (disp : Word), 0 < signed16 disp →
    operandTextWith sp (.mem w ea disp) = ['['] ++ eaText ea ++ [' ', '+', ' '] ++ decimal disp.toNat ++ [']']) ∧
  (∀ (w : Bool) (ea : BitVec 3) (disp : Word), signed16 disp < 0 →
    operandTextWith .plusNegative (.mem w ea disp) =
      ['['] ++ eaText ea ++ [' ', '+', ' ', '-'] ++ decimal (65536 - disp.toNat) ++ [']'] ∧
    operandTextWith .minus (.mem w ea disp) =
      ['['] ++ eaText ea ++ [' ', '-', ' '] ++ decimal (65536 - disp.toNat) ++ [']']) ∧
  (∀ (sp : NegDispText) (w : Bool) (addr : Word),
    operandTextWith sp (.direct w addr) = ['['] ++ decimal addr.toNat ++ [']']) ∧
  (∀ (sp : NegDispText) (w : Bool) (value : Word), operandTextWith sp (.imm w value) = decimal value.toNat) ∧
  (∀ n : Nat, Nat.ofDigitChars 10 (decimal n) 0 = n) ∧
  ((∀ o, operandText o = operandTextWith .plusNegative o) ∨ (∀ o, operandText o = operandTextWith .minus o))

/-- 30_encoding.md R85: in every pass the text is the line `bits 16`, once and first, and then one line
`mov <dest>, <src>` per decoded instruction, in stream order: the k-th line is of the call at the sum of the lengths before
it. (That `bits 16` stands there when no instruction line follows is the spec's decision D18, log entry 15; that the offsets
sum from 0 is D11, log entry 19.) -/
def Obligations.ProgramTextFormat : Prop :=
  ∀ (bytes : List Byte) (n : Nat) (t : State),
    Host.Core.run Sys2Proof.core (n + 1) (State.load (some bytes)) = .next t →
    ∃ rs : List DecodedInstruction, t.written = .bits16 :: rs.map .instruction ∧
      (∀ k r, rs[k]? = some r →
        decodeCall (Memory.ofBytes bytes) bytes.length (consumedBy ((rs.take k).map .instruction)) = .ok r) ∧
      t.text = ['b', 'i', 't', 's', ' ', '1', '6'] ::
        rs.map fun r => ['m', 'o', 'v', ' '] ++ operandText r.dst ++ [',', ' '] ++ operandText r.src

/-! ### The machine -/

/-- When the bytes at the driver's offset decode to an instruction, the step of a running pass is `exec` of it, with
nothing added around it. -/
def Obligations.StepRunsDecodedInstruction : Prop :=
  ∀ (s : State) (i : Instr), s.phase = .running → s.pos < s.len → decode s.window = .instr i → step s = exec i s

/-- Where the encoding of a well-formed instruction stands at the driver's offset, wholly inside the buffer, the step of a
running pass executes it, whatever bytes follow. -/
def Obligations.StepRunsEncodedInstruction : Prop :=
  ∀ (s : State) (i : Instr), s.phase = .running → i.wf = true →
    (∀ k, k < (encode i).length → byteAt s.mem s.len (s.pos + k) = (encode i)[k]?) → step s = exec i s

/-- 60_exceptions.md R163, 10_state.md R32: the driver's loop, turn by turn: one decode call at the driver's offset, and the
next one at the offset its length gave. (That a turn is a step of the machine is log entry 1; that the step which meets an error
answers a next state with the error as the pass's outcome, log entry 6. That a pass loops while pos < len is the spec's decision
D11, log entry 19.) -/
def Obligations.StepIsOneTurnOfDriverLoop : Prop :=
  ∀ s : State,
    (s.phase = .running → s.pos < s.len → ∀ r, decodeCall s.mem s.len s.pos = .ok r →
      step s = .next { s with pos := s.pos + r.length, written := s.written ++ [.instruction r] }) ∧
    (s.phase = .running → s.pos < s.len → ∀ e, decodeCall s.mem s.len s.pos = .err e →
      step s = .next { s with phase := .failed e }) ∧
    (s.phase = .running → s.len ≤ s.pos → step s = .next { s with phase := .completed })

/-- 10_state.md R32, 60_exceptions.md R163: from a machine ready to begin, the steps reach, within len/2 + 2 of them, the
end of the pass that the spec's loop over decode calls computes: the same offset, lines and outcome. (The loop's start and bound
are the spec's decision D11, log entry 19; the header before the first call is D18, log entry 15.) -/
def Obligations.MachineRunIsSpecPass : Prop :=
  ∀ s : State, s.Ready → ∃ n t, n ≤ s.len / 2 + 2 ∧ Host.Core.run Sys2Proof.core n s = .next t ∧
    t.phase.ended = true ∧ t.mem = s.mem ∧ t.len = s.len ∧
    t.pos = (pass s.mem s.len).pos ∧ t.written = (pass s.mem s.len).written ∧ t.phase = (pass s.mem s.len).phase

/-- 70_reset_and_hazards.md R185: every call tries four masks and reads four bytes at most, every pass ends, with the offset
in the buffer, after at most floor(len/2) + 1 decode calls. -/
def Obligations.PassTerminatesInTime : Prop :=
  recognizerTable.length ≤ 4 ∧
  (∀ (buf : Memory) (len pos : Nat), (decodeTraced buf len pos).reads.length ≤ 4) ∧
  (∀ (buf : Memory) (len : Nat),
    (pass buf len).phase.ended = true ∧ (pass buf len).pos ≤ len ∧ (pass buf len).calls ≤ len / 2 + 1)

/-- The invariant holds at reset, and of every loaded machine, also when the source was unavailable. -/
def Obligations.ResetAndLoadSatisfyInvariant : Prop :=
  State.reset.Inv ∧ ∀ input : Option (List Byte), (State.load input).Inv

/-- Every step keeps the invariant: canonical buffer, offset inside it (10_state.md R33), `bits 16` first and once and then
instruction lines only (30_encoding.md R85), the offset the sum of the consumed lengths (70_reset_and_hazards.md R183), and
an end of the pass that has its reason (60_exceptions.md R157). -/
def Obligations.StepKeepsInvariant : Prop :=
  ∀ s t : State, s.Inv → step s = .next t → t.Inv

/-- 20_memory.md R42: no step writes the buffer. -/
def Obligations.StepNeverWritesBuffer : Prop :=
  ∀ s t : State, step s = .next t → t.mem = s.mem ∧ t.len = s.len ∧
    ∀ p, byteAt t.mem t.len p = byteAt s.mem s.len p

/-- 10_state.md R33: the offset advances by the length of a successful call and nothing else sets it; it stays in the buffer,
so at any width that holds the length it never wraps. -/
def Obligations.OffsetAdvancesByLengthOnly : Prop :=
  ∀ s t : State, s.pos ≤ s.len → step s = .next t →
    t.pos ≤ t.len ∧
    (Config.FitsPosition s.len → Config.FitsPosition t.pos) ∧
    ((∃ r, s.phase = .running ∧ decodeCall s.mem s.len s.pos = .ok r ∧ t.pos = s.pos + r.length ∧
        (r.length = 2 ∨ r.length = 3 ∨ r.length = 4)) ∨
      (t.pos = s.pos ∧ ¬ (s.phase = .running ∧ ∃ r, decodeCall s.mem s.len s.pos = .ok r)))

/-- 60_exceptions.md R157, R160: an error stops the pass with everything else as before the call, and the machine reaches no
other state after it. (That the step answers a state with the phase `failed`, and that a further step faults, is log entry 6;
that the lines stay written is the spec's decision D12, log entry 14.) -/
def Obligations.ErrorStopsPassForGood : Prop :=
  ∀ (s : State) (e : DecodeError), s.phase = .running → s.pos < s.len → decodeCall s.mem s.len s.pos = .err e →
    ∃ t, step s = .next t ∧ t.phase = .failed e ∧
      t.mem = s.mem ∧ t.len = s.len ∧ t.pos = s.pos ∧ t.written = s.written ∧
      ∀ n u, Host.Core.run Sys2Proof.core n t = .next u → u = t

/-- What a step outside the loop answers. Before it, `bits 16` is written as a step of its own (the spec's decision D18, log
entry 15). After it, the model's choice (log entries 6 and 7): a failed pass faults by its error's name, a completed one stays
as it is. -/
def Obligations.StepOutsideTheLoop : Prop :=
  ∀ s : State,
    (s.phase = .idle → step s = .next { s with phase := .running, written := s.written ++ [.bits16] }) ∧
    (∀ byte offset, s.phase = .failed (.unrecognizedOpcode byte offset) →
      step s = .fault (.unrecognizedOpcode byte offset)) ∧
    (∀ offset, s.phase = .failed (.bufferExhausted offset) → step s = .fault (.bufferExhausted offset)) ∧
    (s.phase = .sourceUnavailable → step s = .fault .sourceUnavailable) ∧
    (s.phase = .completed → step s = .next s)

/-- 70_reset_and_hazards.md R181: a pass begins at offset 0 with nothing written; `bits 16` is written before the first call,
whatever the buffer holds, for an empty buffer too, for which the pass then ends at once with success. (Decisions D11 and
D18, log entries 19 and 15.) -/
def Obligations.HeaderBeforeFirstCall : Prop :=
  (State.reset.pos = 0 ∧ State.reset.written = []) ∧
  (∀ bytes : List Byte, (State.load (some bytes)).pos = 0 ∧ (State.load (some bytes)).written = [] ∧
    ∃ t, step (State.load (some bytes)) = .next t ∧ t.written = [.bits16] ∧ t.pos = 0 ∧ t.phase = .running ∧
      t.mem = (State.load (some bytes)).mem ∧ t.len = bytes.length) ∧
  (∃ t, Host.Core.run Sys2Proof.core 2 (State.load (some [])) = .next t ∧ t.phase = .completed ∧
    t.written = [.bits16] ∧ t.pos = 0 ∧ exitStatus t.phase = some 0)

/-- 60_exceptions.md R154: an input that cannot be read is reported before any decoding: no line, no decode call, exit
status 1, and a diagnostic (R158). (A phase of its own: log entry 26.) -/
def Obligations.SourceUnavailableBeforeDecoding : Prop :=
  let s := State.load none
  s.written = [] ∧ s.pos = 0 ∧ exitStatus s.phase = some 1 ∧ (diagnostic s.phase).isSome = true ∧
  ∀ n t, Host.Core.run Sys2Proof.core n s = .next t → t = s

/-- 60_exceptions.md R158: the exit status is 0 exactly for a pass that completed the buffer, and 1 for one that an error
stopped; an unrecognized opcode comes with a diagnostic. (1 for `BufferExhausted` is the spec's decision D12, log entry 14.) -/
def Obligations.ExitStatusTellsHowPassEnded : Prop :=
  ∀ (buf : Memory) (len : Nat),
    let p := pass buf len
    (exitStatus p.phase = some 0 ∧ p.phase = .completed ∧ p.pos = len) ∨
    (exitStatus p.phase = some 1 ∧ p.pos < len ∧ ∃ e, p.phase = .failed e ∧ decodeCall buf len p.pos = .err e ∧
      (∀ byte offset, e = .unrecognizedOpcode byte offset → (diagnostic p.phase).isSome = true))

/-- A buffer that is the encodings of well-formed instructions one after another is decoded to exactly their records, in
order, and the pass completes with exit status 0. -/
def Obligations.EncodedStreamDecodesBack : Prop :=
  ∀ is : List Instr, (∀ i ∈ is, i.wf = true) →
    ∃ n t, Host.Core.run Sys2Proof.core n (State.load (some (is.flatMap encode))) = .next t ∧
      t.phase = .completed ∧ exitStatus t.phase = some 0 ∧ t.pos = t.len ∧
      t.written = .bits16 :: is.map fun i => .instruction (recordOf i)

/-! ### The instructions: each runs in every state, with its whole next state -/

/-- 40_mov_regmem.md R104: `mov r/m8, r8`. -/
def Obligations.MovRm8R8Result : Prop :=
  ∀ (f : MrmFields) (s : State),
    exec (.movRm8R8 f) s = .next { s with
      pos := s.pos + (2 + dlen f.mod f.rm)
      written := s.written ++ [.instruction
        { mnemonic := .mov
          dst := if f.mod = 0b11#2 then .reg false f.rm
            else if f.mod = 0b00#2 ∧ f.rm = 0b110#3 then .direct false f.disp
            else .mem false f.rm f.disp
          src := .reg false f.reg
          length := 2 + dlen f.mod f.rm }] }

/-- 40_mov_regmem.md R105: `mov r/m16, r16`. -/
def Obligations.MovRm16R16Result : Prop :=
  ∀ (f : MrmFields) (s : State),
    exec (.movRm16R16 f) s = .next { s with
      pos := s.pos + (2 + dlen f.mod f.rm)
      written := s.written ++ [.instruction
        { mnemonic := .mov
          dst := if f.mod = 0b11#2 then .reg true f.rm
            else if f.mod = 0b00#2 ∧ f.rm = 0b110#3 then .direct true f.disp
            else .mem true f.rm f.disp
          src := .reg true f.reg
          length := 2 + dlen f.mod f.rm }] }

/-- 40_mov_regmem.md R106: `mov r8, r/m8`. -/
def Obligations.MovR8Rm8Result : Prop :=
  ∀ (f : MrmFields) (s : State),
    exec (.movR8Rm8 f) s = .next { s with
      pos := s.pos + (2 + dlen f.mod f.rm)
      written := s.written ++ [.instruction
        { mnemonic := .mov
          dst := .reg false f.reg
          src := if f.mod = 0b11#2 then .reg false f.rm
            else if f.mod = 0b00#2 ∧ f.rm = 0b110#3 then .direct false f.disp
            else .mem false f.rm f.disp
          length := 2 + dlen f.mod f.rm }] }

/-- 40_mov_regmem.md R107: `mov r16, r/m16`. -/
def Obligations.MovR16Rm16Result : Prop :=
  ∀ (f : MrmFields) (s : State),
    exec (.movR16Rm16 f) s = .next { s with
      pos := s.pos + (2 + dlen f.mod f.rm)
      written := s.written ++ [.instruction
        { mnemonic := .mov
          dst := .reg true f.reg
          src := if f.mod = 0b11#2 then .reg true f.rm
            else if f.mod = 0b00#2 ∧ f.rm = 0b110#3 then .direct true f.disp
            else .mem true f.rm f.disp
          length := 2 + dlen f.mod f.rm }] }

/-- 41_mov_imm.md R134: `mov r8, imm8`. -/
def Obligations.MovR8Imm8Result : Prop :=
  ∀ (reg : BitVec 3) (imm : Byte) (s : State),
    exec (.movR8Imm8 reg imm) s = .next { s with
      pos := s.pos + 2
      written := s.written ++ [.instruction
        { mnemonic := .mov, dst := .reg false reg, src := .imm false (imm.setWidth 16), length := 2 }] }

/-- 41_mov_imm.md R135: `mov r16, imm16`. -/
def Obligations.MovR16Imm16Result : Prop :=
  ∀ (reg : BitVec 3) (imm : Word) (s : State),
    exec (.movR16Imm16 reg imm) s = .next { s with
      pos := s.pos + 3
      written := s.written ++ [.instruction
        { mnemonic := .mov, dst := .reg true reg, src := .imm true imm, length := 3 }] }

/-- The frame of all six instructions (10_state.md R20, R22, 40_mov_regmem.md R102, 41_mov_imm.md R132): every byte of the
buffer, its length and the phase are unchanged; one instruction line is added after those already written; the offset grows
by the instruction's length. -/
def Obligations.InstructionFrame : Prop :=
  ∀ (i : Instr) (s t : State), exec i s = .next t →
    t.mem = s.mem ∧ t.len = s.len ∧ t.phase = s.phase ∧
    (∀ p, byteAt t.mem t.len p = byteAt s.mem s.len p) ∧
    t.pos = s.pos + i.length ∧
    ∃ r, t.written = s.written ++ [.instruction r] ∧ r.length = i.length

/-! ### Encoding -/

/-- Decoding the encoding of a well-formed instruction gives it back with every operand, whatever bytes follow. -/
def Obligations.DecodeInvertsEncode : Prop :=
  ∀ (i : Instr) (rest : List Byte), i.wf = true → decode (encode i ++ rest) = .instr i

/-- What decodes is the encoding of a well-formed instruction: no bit of the consumed bytes is dropped, and each word has one
meaning. -/
def Obligations.DecodedBytesAreTheEncoding : Prop :=
  ∀ (bs : List Byte) (i : Instr), decode bs = .instr i →
    i.wf = true ∧ i.length ≤ bs.length ∧ bs.take i.length = encode i

/-- The worked examples' words, bit by bit from the formats (40_mov_regmem.md R104 to R107, 41_mov_imm.md R134, R135). -/
def Obligations.WorkedWordsDecode : Prop :=
  decode [0b10001000#8, 0b11000011#8] = .instr (.movRm8R8 { mod := 0b11#2, reg := 0b000#3, rm := 0b011#3, disp := 0#16 }) ∧
  decode [0b10001001#8, 0b11011001#8] = .instr (.movRm16R16 { mod := 0b11#2, reg := 0b011#3, rm := 0b001#3, disp := 0#16 }) ∧
  decode [0b10001010#8, 0b00000000#8] = .instr (.movR8Rm8 { mod := 0b00#2, reg := 0b000#3, rm := 0b000#3, disp := 0#16 }) ∧
  decode [0b10001011#8, 0b01000001#8, 0x0C#8] =
    .instr (.movR16Rm16 { mod := 0b01#2, reg := 0b000#3, rm := 0b001#3, disp := 12#16 }) ∧
  decode [0b10110001#8, 0x0C#8] = .instr (.movR8Imm8 0b001#3 12#8) ∧
  decode [0b10111001#8, 0x0C#8, 0x00#8] = .instr (.movR16Imm16 0b001#3 12#16)

/-! ### The buffer and the loader -/

/-- A read after a write of the buffer's representation: the byte written at its offset, and every other byte as before. The
core and its driver write no byte; the write is the model's own (log entries 2, 5 and 17), by which withFetchWord places a
word. -/
def Obligations.BufferReadAfterWrite : Prop :=
  ∀ (m : Memory) (p q : Nat) (v : Byte), m.wf = true →
    (m.write p v).read q = if q = p then v else m.read q

/-- The canonical form: two buffers of one length with the same bytes are the same data. -/
def Obligations.EqualBuffersAreEqualData : Prop :=
  ∀ (m m' : Memory) (len : Nat), m.wf = true → m'.wf = true → m.within len = true → m'.within len = true →
    (∀ p, byteAt m len p = byteAt m' len p) → m = m'

/-- 20_memory.md R40: the loaded buffer has exactly the input's bytes at offsets 0 to len - 1. -/
def Obligations.LoadedBufferHoldsBytes : Prop :=
  ∀ (bytes : List Byte) (p : Nat),
    byteAt (State.load (some bytes)).mem (State.load (some bytes)).len p = bytes[p]?

/-- A table word placed where the next step fetches is what the next step runs, from any state (log entry 5). -/
def Obligations.PlacedTableWordRuns : Prop :=
  ∀ (s : State) (nbits w : Nat) (i : Instr), s.mem.wf = true → decodeTableWord nbits w = some i →
    step (s.withFetchWord nbits w) = exec i (s.withFetchWord nbits w)

/-! ### Several decoders -/

/-- 60_exceptions.md R162: whichever instances step in each round, over one buffer or over different ones, each is where a lone
machine over its buffer is after the steps the schedule gave it; no buffer changes, and each driver keeps its own. (Rounds of whole
steps: log entry 22.) -/
def Obligations.InstancesDoNotInterfere : Prop :=
  ∀ (f : Instances) (schedule : List (List Nat)),
    let g := f.runSchedule schedule
    g.buffers = f.buffers ∧ g.drivers.map (·.buffer) = f.drivers.map (·.buffer) ∧
    ∀ k, g.view k = (f.view k).map (State.advanceMany (schedule.countP fun round => round.contains k))
end

