-- ==== Sys2Proof/Laws/Decode.lean ====
section
/-! SUPPORT. The bit-level laws of the encoding: fields read back what was written, byte order, displacements, and one
spec lemma per reading function. -/

namespace Sys2Proof.Machine

@[simp] theorem recognize_mrmByte1 (d w : Bool) : recognize (mrmByte1 d w) = some .mrm := by revert d w; decide
@[simp] theorem mrmD_mrmByte1 (d w : Bool) : mrmD (mrmByte1 d w) = d := by revert d w; decide
@[simp] theorem mrmW_mrmByte1 (d w : Bool) : mrmW (mrmByte1 d w) = w := by revert d w; decide
@[simp] theorem recognize_immByte1 (w : Bool) (reg : BitVec 3) : recognize (immByte1 w reg) = some .imm := by
  revert w reg; decide
@[simp] theorem immW_immByte1 (w : Bool) (reg : BitVec 3) : immW (immByte1 w reg) = w := by revert w reg; decide
@[simp] theorem immReg_immByte1 (w : Bool) (reg : BitVec 3) : immReg (immByte1 w reg) = reg := by revert w reg; decide
@[simp] theorem modField_mrmByte2 (mod : BitVec 2) (reg rm : BitVec 3) : modField (mrmByte2 mod reg rm) = mod := by
  revert mod reg rm; decide
@[simp] theorem regField_mrmByte2 (mod : BitVec 2) (reg rm : BitVec 3) : regField (mrmByte2 mod reg rm) = reg := by
  revert mod reg rm; decide
@[simp] theorem rmField_mrmByte2 (mod : BitVec 2) (reg rm : BitVec 3) : rmField (mrmByte2 mod reg rm) = rm := by
  revert mod reg rm; decide

/-- A recognized MRM byte1 is rebuilt from its `d` and `w`. -/
theorem mrmByte1_of_recognize {b : Byte} : recognize b = some .mrm → mrmByte1 (mrmD b) (mrmW b) = b := by
  revert b; decide

/-- A recognized IMM byte1 is rebuilt from its `w` and `reg`. -/
theorem immByte1_of_recognize {b : Byte} : recognize b = some .imm → immByte1 (immW b) (immReg b) = b := by
  revert b; decide

/-- byte2 is rebuilt from its three fields. -/
theorem mrmByte2_fields (b : Byte) : mrmByte2 (modField b) (regField b) (rmField b) = b := by revert b; decide

@[simp] theorem le16_lo_hi (v : Word) : le16 (loByte v) (hiByte v) = v := by
  unfold le16 loByte hiByte zext16; ext i; simp; grind

@[simp] theorem loByte_le16 (lo hi : Byte) : loByte (le16 lo hi) = lo := by
  unfold le16 loByte zext16; ext i; simp

@[simp] theorem hiByte_le16 (lo hi : Byte) : hiByte (le16 lo hi) = hi := by
  unfold le16 hiByte zext16; ext i; simp; grind

@[simp] theorem loByte_sext16 (b : Byte) : loByte (sext16 b) = b := by revert b; decide
@[simp] theorem loByte_zext16 (b : Byte) : loByte (zext16 b) = b := by revert b; decide

/-- The two bytes of a 16-bit value weigh 1 and 256. -/
theorem le16_toNat (lo hi : Byte) : (le16 lo hi).toNat = hi.toNat * 256 + lo.toNat := by
  have h : le16 lo hi = hi ++ lo := by unfold le16 zext16; ext i; simp; grind
  rw [h, BitVec.toNat_append, Nat.shiftLeft_eq]
  rw [Nat.mul_comm, ← Nat.two_pow_add_eq_or_of_lt lo.isLt]

theorem zext16_toNat (b : Byte) : (zext16 b).toNat = b.toNat := by revert b; decide
theorem sext16_toInt (b : Byte) : (sext16 b).toInt = b.toInt := by revert b; decide

/-- The number of displacement bytes is 0, 1 or 2. -/
theorem dlen_cases (mod : BitVec 2) (rm : BitVec 3) : dlen mod rm = 0 ∨ dlen mod rm = 1 ∨ dlen mod rm = 2 := by
  revert mod rm; decide

theorem dlen_le (mod : BitVec 2) (rm : BitVec 3) : dlen mod rm ≤ 2 := by revert mod rm; decide

theorem byteAt_of_lt {buf : Memory} {len p : Nat} (h : p < len) : byteAt buf len p = some (buf.read p) := if_pos h
theorem byteAt_of_ge {buf : Memory} {len p : Nat} (h : len ≤ p) : byteAt buf len p = none := if_neg (by omega)

theorem byteAt_eq_some {buf : Memory} {len p : Nat} {b : Byte} :
    byteAt buf len p = some b ↔ p < len ∧ buf.read p = b := by
  simp [byteAt]

theorem byteAt_eq_none {buf : Memory} {len p : Nat} : byteAt buf len p = none ↔ len ≤ p := by
  simp [byteAt]

/-- The window holds the bytes from `pos` on, as far as they exist and four at most. -/
theorem windowBytes_eq (buf : Memory) (len pos : Nat) :
    windowBytes buf len pos =
      if pos + 4 ≤ len then [buf.read pos, buf.read (pos + 1), buf.read (pos + 2), buf.read (pos + 3)]
      else if pos + 3 = len then [buf.read pos, buf.read (pos + 1), buf.read (pos + 2)]
      else if pos + 2 = len then [buf.read pos, buf.read (pos + 1)]
      else if pos + 1 = len then [buf.read pos]
      else [] := by
  unfold windowBytes available maxLength
  split
  · split
    · rw [show min 4 (len - pos) = 4 by omega]; rfl
    · split
      · rw [show min 4 (len - pos) = 3 by omega]; rfl
      · split
        · rw [show min 4 (len - pos) = 2 by omega]; rfl
        · rw [if_pos (by omega), show min 4 (len - pos) = 1 by omega]; rfl
  · rw [if_neg (by omega), if_neg (by omega), if_neg (by omega), if_neg (by omega)]; rfl

end Sys2Proof.Machine
end

