-- ==== Sys2Proof/Laws/State.lean ====
section
/-! SUPPORT. One lemma per field per update of the state. -/

namespace Sys2Proof.Machine

variable (s : State) (e : DecodeError) (r : DecodedInstruction) (bytes : List Byte)

@[simp] theorem State.start_mem : s.start.mem = s.mem := rfl
@[simp] theorem State.start_len : s.start.len = s.len := rfl
@[simp] theorem State.start_pos : s.start.pos = s.pos := rfl
@[simp] theorem State.start_phase : s.start.phase = .running := rfl
@[simp] theorem State.start_written : s.start.written = s.written ++ [.bits16] := rfl

@[simp] theorem State.accept_mem : (s.accept r).mem = s.mem := rfl
@[simp] theorem State.accept_len : (s.accept r).len = s.len := rfl
@[simp] theorem State.accept_pos : (s.accept r).pos = s.pos + r.length := rfl
@[simp] theorem State.accept_phase : (s.accept r).phase = s.phase := rfl
@[simp] theorem State.accept_written : (s.accept r).written = s.written ++ [.instruction r] := rfl

@[simp] theorem State.takeError_mem : (s.takeError e).mem = s.mem := rfl
@[simp] theorem State.takeError_len : (s.takeError e).len = s.len := rfl
@[simp] theorem State.takeError_pos : (s.takeError e).pos = s.pos := rfl
@[simp] theorem State.takeError_phase : (s.takeError e).phase = .failed e := rfl
@[simp] theorem State.takeError_written : (s.takeError e).written = s.written := rfl

@[simp] theorem State.complete_mem : s.complete.mem = s.mem := rfl
@[simp] theorem State.complete_len : s.complete.len = s.len := rfl
@[simp] theorem State.complete_pos : s.complete.pos = s.pos := rfl
@[simp] theorem State.complete_phase : s.complete.phase = .completed := rfl
@[simp] theorem State.complete_written : s.complete.written = s.written := rfl

@[simp] theorem State.placeAtPos_mem : (s.placeAtPos bytes).mem = s.mem.writeBytes s.pos bytes := rfl
@[simp] theorem State.placeAtPos_len : (s.placeAtPos bytes).len = max s.len (s.pos + bytes.length) := rfl
@[simp] theorem State.placeAtPos_pos : (s.placeAtPos bytes).pos = s.pos := rfl
@[simp] theorem State.placeAtPos_phase : (s.placeAtPos bytes).phase = .running := rfl
@[simp] theorem State.placeAtPos_written :
    (s.placeAtPos bytes).written = if s.written.isEmpty then [.bits16] else s.written := rfl

@[simp] theorem State.load_mem : (State.load (some bytes)).mem = Memory.ofBytes bytes := rfl
@[simp] theorem State.load_len : (State.load (some bytes)).len = bytes.length := rfl
@[simp] theorem State.load_pos (input : Option (List Byte)) : (State.load input).pos = 0 := by cases input <;> rfl
@[simp] theorem State.load_phase : (State.load (some bytes)).phase = .idle := rfl
@[simp] theorem State.load_written (input : Option (List Byte)) : (State.load input).written = [] := by cases input <;> rfl

end Sys2Proof.Machine
end

