-- ==== Sys2Proof/Laws/Step.lean ====
section
/-! SUPPORT. What executing an instruction and one step can do, said once. -/

namespace Sys2Proof.Machine

/-- Every instruction's effect: its record is accepted. -/
theorem exec_eq_accept (i : Instr) (s : State) : exec i s = .next (s.accept (recordOf i)) := by cases i <;> rfl

/-- The record's length is the instruction's. -/
theorem recordOf_length (i : Instr) : (recordOf i).length = i.length := by cases i <;> rfl

/-- A record consumes 2, 3 or 4 bytes. -/
theorem recordOf_length_cases (i : Instr) :
    (recordOf i).length = 2 ∨ (recordOf i).length = 3 ∨ (recordOf i).length = 4 := by
  cases i <;> simp only [recordOf, mrmRecord, immRecord, Bool.toNat_true, Bool.toNat_false]
  case movR8Imm8 => simp
  case movR16Imm16 => simp
  all_goals next f => rcases dlen_cases f.mod f.rm with h | h | h <;> simp [h]

@[simp] theorem recordOf_mrmInstr (d w : Bool) (f : MrmFields) : recordOf (mrmInstr d w f) = mrmRecord d w f := by
  cases d <;> cases w <;> rfl

/-- The cases of a step that answers a next state: the pass begins, an instruction runs, an error is taken, the pass
completes, or a completed pass stays. -/
theorem step_cases {s t : State} (h : step s = .next t) :
    (s.phase = .idle ∧ t = s.start) ∨
    (∃ i, s.phase = .running ∧ s.pos < s.len ∧ decode s.window = .instr i ∧ t = s.accept (recordOf i)) ∨
    (∃ r, s.phase = .running ∧ s.pos < s.len ∧ decode s.window = .reject r ∧ t = s.takeError (errorOfReject s.pos r)) ∨
    (s.phase = .running ∧ s.len ≤ s.pos ∧ t = s.complete) ∨
    (s.phase = .completed ∧ t = s) := by
  unfold step fetch at h
  cases hp : s.phase with
  | idle => simp only [hp, Host.Outcome.next.injEq] at h; exact .inl ⟨rfl, h.symm⟩
  | completed => simp only [hp, Host.Outcome.next.injEq] at h; simp [h]
  | failed e => simp [hp] at h
  | sourceUnavailable => simp [hp] at h
  | running =>
    by_cases hl : s.pos < s.len
    · cases hd : decode s.window with
      | instr i =>
        simp only [hp, if_pos hl, hd, exec_eq_accept, Host.Outcome.next.injEq] at h
        exact .inr (.inl ⟨i, rfl, hl, rfl, h.symm⟩)
      | reject r =>
        simp only [hp, if_pos hl, hd, Host.Outcome.next.injEq] at h
        exact .inr (.inr (.inl ⟨r, rfl, hl, rfl, h.symm⟩))
    · simp only [hp, if_neg hl, Host.Outcome.next.injEq] at h
      exact .inr (.inr (.inr (.inl ⟨rfl, by omega, h.symm⟩)))

/-- A step faults exactly in a pass that has ended with an error, and no step is refused. -/
theorem step_total (s : State) :
    (∃ t, step s = .next t) ∨ (∃ e, s.phase = .failed e ∧ step s = .fault (faultOfError e)) ∨
      (s.phase = .sourceUnavailable ∧ step s = .fault .sourceUnavailable) := by
  unfold step fetch
  cases hp : s.phase with
  | running =>
    by_cases hl : s.pos < s.len
    · cases decode s.window <;> simp [hl, exec_eq_accept]
    · simp [hl]
  | _ => simp

end Sys2Proof.Machine
end

