-- ==== Sys2Proof/Laws/DecodeCall.lean ====
section
/-! SUPPORT. One decode call against the decoder of the fetch window: the same result, reached two ways. -/

namespace Sys2Proof.Machine

/-- What a decode call returns, from what the decoder reads in the window at its offset. -/
def resultOf (pos : Nat) : Decoded → DecodeResult
  | .instr i => .ok (recordOf i)
  | .reject r => .err (errorOfReject pos r)

/-- How far the buffer reaches past an offset, as far as a decode call can tell. -/
theorem reach_cases (len pos : Nat) :
    len ≤ pos ∨ len = pos + 1 ∨ len = pos + 2 ∨ len = pos + 3 ∨ pos + 4 ≤ len := by omega

theorem decodeMrm_result {buf : Memory} {len pos : Nat} (b1 : Byte) (hl : pos < len) :
    (decodeMrm buf len pos b1).result = resultOf pos (decodeMrmBytes b1 (windowBytes buf len pos).tail) := by
  rw [windowBytes_eq]
  rcases reach_cases len pos with h | rfl | rfl | rfl | h
  · omega
  all_goals simp [decodeMrm, decodeMrmBytes, decodeDisp, byteAt, Call.raise, Call.done, resultOf, errorOfReject]
  all_goals rcases dlen_cases (modField (buf.read (pos + 1))) (rmField (buf.read (pos + 1))) with hd | hd | hd
  all_goals simp [hd, displacement]
  all_goals simp [show pos + 2 < len by omega, show pos + 3 < len by omega, show pos + 1 < len by omega, h, hd]

theorem decodeImm_result {buf : Memory} {len pos : Nat} (b1 : Byte) (hl : pos < len) :
    (decodeImm buf len pos b1).result = resultOf pos (decodeImmBytes b1 (windowBytes buf len pos).tail) := by
  rw [windowBytes_eq]
  rcases reach_cases len pos with h | rfl | rfl | rfl | h
  · omega
  all_goals cases hw : immW b1
  all_goals simp [decodeImm, decodeImmBytes, byteAt, Call.raise, Call.done, resultOf, errorOfReject, recordOf, hw]
  all_goals simp [show pos + 1 < len by omega, show pos + 2 < len by omega, h]

/-- A decode call returns what the decoder of the fetch window reads. -/
theorem decodeCall_eq_window (buf : Memory) (len pos : Nat) :
    decodeCall buf len pos = resultOf pos (decode (windowBytes buf len pos)) := by
  by_cases hl : pos < len
  · have hw : windowBytes buf len pos = buf.read pos :: (windowBytes buf len pos).tail := by
      rw [windowBytes_eq]
      rcases reach_cases len pos with h | rfl | rfl | rfl | h
      · omega
      all_goals simp_all
    rw [hw]
    simp only [decodeCall, decodeTraced, byteAt_of_lt hl, decode]
    cases hr : recognize (buf.read pos) with
    | none => rfl
    | some f =>
      cases f with
      | mrm => exact decodeMrm_result _ hl
      | imm => exact decodeImm_result _ hl
  · rw [windowBytes_eq, if_neg (by omega), if_neg (by omega), if_neg (by omega), if_neg (by omega)]
    simp [decodeCall, decodeTraced, byteAt, hl, Call.raise, decode, resultOf, errorOfReject]

/-- The family a decode call selects, or the error it ends with before. -/
theorem decodeTraced_family (buf : Memory) (len pos : Nat) :
    (len ≤ pos ∧ decodeTraced buf len pos = ⟨.err (.bufferExhausted pos), []⟩) ∨
    (pos < len ∧ recognize (buf.read pos) = none ∧
      decodeTraced buf len pos = ⟨.err (.unrecognizedOpcode (buf.read pos) pos), [pos]⟩) ∨
    (pos < len ∧ recognize (buf.read pos) = some .mrm) ∨ (pos < len ∧ recognize (buf.read pos) = some .imm) := by
  by_cases h : pos < len
  · cases hr : recognize (buf.read pos) with
    | none => simp [h, decodeTraced, byteAt, hr, Call.raise]
    | some f => cases f <;> simp [h]
  · left; simp [decodeTraced, byteAt, h, Call.raise]; omega

/-- Everything a decode call can do: its result and the offsets it read, by how far the buffer reaches and what byte1 and
byte2 say. -/
theorem decodeTraced_cases (buf : Memory) (len pos : Nat) :
    let b1 := buf.read pos
    let b2 := buf.read (pos + 1)
    let n := dlen (modField b2) (rmField b2)
    let record (disp : Word) := mrmRecord (mrmD b1) (mrmW b1) ⟨modField b2, regField b2, rmField b2, disp⟩
    let c := decodeTraced buf len pos
    (len ≤ pos ∧ c = ⟨.err (.bufferExhausted pos), []⟩) ∨
    (pos < len ∧ recognize b1 = none ∧ c = ⟨.err (.unrecognizedOpcode b1 pos), [pos]⟩) ∨
    (len = pos + 1 ∧ recognize b1 ≠ none ∧ c = ⟨.err (.bufferExhausted (pos+1)), [pos]⟩) ∨
    (pos + 1 < len ∧ recognize b1 = some .mrm ∧ n = 0 ∧ c = ⟨.ok (record 0#16), [pos, pos+1]⟩) ∨
    (pos + 2 = len ∧ recognize b1 = some .mrm ∧ 1 ≤ n ∧ c = ⟨.err (.bufferExhausted (pos+2)), [pos, pos+1]⟩) ∨
    (pos + 2 < len ∧ recognize b1 = some .mrm ∧ n = 1 ∧
      c = ⟨.ok (record (sext16 (buf.read (pos+2)))), [pos, pos+1,pos+2]⟩) ∨
    (pos + 3 = len ∧ recognize b1 = some .mrm ∧ n = 2 ∧ c = ⟨.err (.bufferExhausted (pos+3)), [pos, pos+1, pos+2]⟩) ∨
    (pos + 3 < len ∧ recognize b1 = some .mrm ∧ n = 2 ∧
      c = ⟨.ok (record (le16 (buf.read (pos+2)) (buf.read (pos+3)))), [pos, pos+1,pos+2,pos+3]⟩) ∨
    (pos + 1 < len ∧ recognize b1 = some .imm ∧ immW b1 = false ∧
      c = ⟨.ok (immRecord false (immReg b1) (immOperand8 b2)), [pos, pos+1]⟩) ∨
    (pos + 2 = len ∧ recognize b1 = some .imm ∧ immW b1 = true ∧
      c = ⟨.err (.bufferExhausted (pos+2)), [pos, pos+1]⟩) ∨
    (pos + 2 < len ∧ recognize b1 = some .imm ∧ immW b1 = true ∧
      c = ⟨.ok (immRecord true (immReg b1) (immOperand16 (le16 b2 (buf.read (pos+2))))), [pos, pos+1,pos+2]⟩) := by
  dsimp only
  rcases decodeTraced_family buf len pos with h | h | ⟨h, hr⟩ | ⟨h, hr⟩
  · exact .inl h
  · exact .inr (.inl h)
  · simp only [hr, decodeTraced, byteAt_of_lt h, decodeMrm]
    by_cases h1 : pos + 1 < len
    · rw [byteAt_of_lt h1]
      rcases dlen_cases (modField (buf.read (pos + 1))) (rmField (buf.read (pos+1))) with hd | hd | hd
      · simp [hd, Call.done, h1, h]
      · by_cases h2 : pos + 2 < len
        · simp [hd, Call.done, byteAt_of_lt h2, h1, h2]
        · simp [hd, byteAt_of_ge (Nat.le_of_not_lt h2), Call.raise]; omega
      · by_cases h2 : pos + 2 < len
        · by_cases h3 : pos + 3 < len
          · simp [hd, Call.done, byteAt_of_lt h2, byteAt_of_lt h3, h1, h2, h3]
          · simp [hd, byteAt_of_lt h2, byteAt_of_ge (Nat.le_of_not_lt h3), Call.raise]; omega
        · simp [hd, byteAt_of_ge (Nat.le_of_not_lt h2), Call.raise]; omega
    · simp [byteAt_of_ge (Nat.le_of_not_lt h1), Call.raise]; omega
  · simp only [hr, decodeTraced, byteAt_of_lt h, decodeImm]
    by_cases h1 : pos + 1 < len
    · rw [byteAt_of_lt h1]
      cases hw : immW (buf.read pos)
      · simp [Call.done, h1]
      · by_cases h2 : pos + 2 < len
        · simp [Call.done, byteAt_of_lt h2, h1, h2]
        · simp [byteAt_of_ge (Nat.le_of_not_lt h2), Call.raise]; omega
    · simp [byteAt_of_ge (Nat.le_of_not_lt h1), Call.raise]; omega

/-- No more than four window bytes exist. -/
theorem windowBytes_length_le (buf : Memory) (len pos : Nat) : (windowBytes buf len pos).length ≤ 4 := by
  simp only [windowBytes, List.length_map, List.length_range, available, maxLength]
  split <;> omega

end Sys2Proof.Machine
end

