-- ==== Sys2Proof/Laws/Instances.lean ====
section
/-! SUPPORT. What one round of several decoders can do: it leaves the buffers and each driver's choice of one, and moves a
driver by a step of its own lone machine. -/

namespace Sys2Proof.Machine

@[simp] theorem over_mem (d : DriverState) (b : Buffer) : (d.over b).mem = b.mem := rfl
@[simp] theorem over_len (d : DriverState) (b : Buffer) : (d.over b).len = b.len := rfl
@[simp] theorem driver_buffer (s : State) (n : Nat) : (s.driver n).buffer = n := rfl
@[simp] theorem stepRound_buffers (f : Instances) (round : List Nat) : (f.stepRound round).buffers = f.buffers := rfl

/-- A machine is its driver over its buffer. -/
theorem driver_over {s : State} {b : Buffer} (n : Nat) (hm : s.mem = b.mem) (hl : s.len = b.len) :
    (s.driver n).over b = s := by
  cases s; cases b; subst hm hl; rfl

/-- A lone machine's step leaves its buffer. -/
theorem advance_buffer (s : State) : s.advance.mem = s.mem ∧ s.advance.len = s.len := by
  unfold State.advance
  cases h : step s with
  | next t =>
    rcases step_cases h with ⟨_, rfl⟩ | ⟨_, _, _, _, rfl⟩ | ⟨_, _, _, _, rfl⟩ | ⟨_, _, rfl⟩ | ⟨_, rfl⟩ <;> exact ⟨rfl, rfl⟩
  | fault _ => exact ⟨rfl, rfl⟩
  | refused _ => exact ⟨rfl, rfl⟩

@[simp] theorem stepDriver_buffer (f : Instances) (d : DriverState) : (f.stepDriver d).buffer = d.buffer := by
  unfold Instances.stepDriver
  cases f.machine d <;> rfl

/-- The stepped driver's machine is the driver's machine, one step on. -/
theorem machine_stepDriver (f : Instances) (d : DriverState) :
    f.machine (f.stepDriver d) = (f.machine d).map State.advance := by
  unfold Instances.stepDriver Instances.machine
  cases h : f.buffers[d.buffer]? with
  | none => simp [h]
  | some b =>
    obtain ⟨hm, hl⟩ := advance_buffer (d.over b)
    simp [h, driver_over d.buffer hm hl]

/-- The driver at a list position after a round. -/
theorem stepRound_driver (f : Instances) (round : List Nat) (k : Nat) :
    (f.stepRound round).drivers[k]? =
      f.drivers[k]?.map fun d => if round.contains k then f.stepDriver d else d := by
  simp [Instances.stepRound, List.getElem?_mapIdx]

end Sys2Proof.Machine
end

