-- ==== Sys2Proof/Laws/Memory.lean ====
section
/-! SUPPORT. The canonical form of the buffer: every operation that makes or changes a memory keeps it. -/

namespace Sys2Proof.Machine

theorem Memory.wfFrom_mono {lo lo' : Nat} (h : lo' ≤ lo) {m : Memory} (hm : m.wfFrom lo = true) :
    m.wfFrom lo' = true := by
  cases m with
  | nil => rfl
  | cons c m =>
    obtain ⟨a, v⟩ := c
    simp only [Memory.wfFrom, Bool.and_eq_true, decide_eq_true_eq] at hm ⊢
    exact ⟨⟨by omega, hm.1.2⟩, hm.2⟩

theorem Memory.wfFrom_cons_op {lo p : Nat} (v : Byte) (h : lo ≤ p) {m : Memory} (hm : m.wfFrom (p + 1) = true) :
    (Memory.cons p v m).wfFrom lo = true := by
  unfold Memory.cons
  split
  · exact Memory.wfFrom_mono (by omega) hm
  · simp [Memory.wfFrom, *]

theorem Memory.wfFrom_write (m : Memory) (p : Nat) (v : Byte) : ∀ lo, lo ≤ p → m.wfFrom lo = true →
    (m.write p v).wfFrom lo = true := by
  induction m with
  | nil => intro lo h _; exact Memory.wfFrom_cons_op v h rfl
  | cons c m ih =>
    obtain ⟨a, b⟩ := c
    intro lo h hm
    simp only [Memory.wfFrom, Bool.and_eq_true, decide_eq_true_eq] at hm
    simp only [Memory.write]
    split
    · exact Memory.wfFrom_cons_op v h (by simp [Memory.wfFrom, hm]; omega)
    · split
      · next h2 => subst h2; exact Memory.wfFrom_cons_op v h hm.2
      · simp only [Memory.wfFrom, Bool.and_eq_true, decide_eq_true_eq]
        exact ⟨hm.1, ih _ (by omega) hm.2⟩

/-- A write keeps the canonical form. -/
theorem Memory.wf_write {m : Memory} (h : m.wf = true) (p : Nat) (v : Byte) : (m.write p v).wf = true :=
  Memory.wfFrom_write m p v 0 (Nat.zero_le p) h

/-- Writing a run of bytes keeps the canonical form. -/
theorem Memory.wf_writeBytes (bytes : List Byte) : ∀ {m : Memory}, m.wf = true → ∀ p, (m.writeBytes p bytes).wf = true := by
  induction bytes with
  | nil => intro m h _; exact h
  | cons v vs ih => intro m h p; exact ih (Memory.wf_write h p v) (p + 1)

theorem Memory.wfFrom_ofBytesFrom (bytes : List Byte) : ∀ p, (Memory.ofBytesFrom p bytes).wfFrom p = true := by
  induction bytes with
  | nil => intro _; rfl
  | cons v vs ih => intro p; exact Memory.wfFrom_cons_op v (Nat.le_refl p) (ih (p + 1))

/-- What the loader loads is in canonical form. -/
theorem Memory.wf_ofBytes (bytes : List Byte) : (Memory.ofBytes bytes).wf = true :=
  Memory.wfFrom_ofBytesFrom bytes 0

theorem Memory.within_cons_op {p len : Nat} (v : Byte) (h : p < len) {m : Memory} (hm : m.within len = true) :
    (Memory.cons p v m).within len = true := by
  unfold Memory.cons
  split
  · exact hm
  · simpa [Memory.within, h] using hm

/-- A write inside the buffer keeps every listed offset inside it. -/
theorem Memory.within_write {len p : Nat} (h : p < len) (v : Byte) {m : Memory} (hm : m.within len = true) :
    (m.write p v).within len = true := by
  induction m with
  | nil => exact Memory.within_cons_op v h rfl
  | cons c m ih =>
    obtain ⟨a, b⟩ := c
    have hm' : a < len ∧ Memory.within m len = true := by simpa [Memory.within] using hm
    simp only [Memory.write]
    split
    · exact Memory.within_cons_op v h hm
    · split
      · exact Memory.within_cons_op v h hm'.2
      · have := ih hm'.2
        simp only [Memory.within, List.all_cons, Bool.and_eq_true, decide_eq_true_eq] at this ⊢
        exact ⟨hm'.1, this⟩

theorem Memory.within_ofBytesFrom (bytes : List Byte) : ∀ p len, p + bytes.length ≤ len →
    (Memory.ofBytesFrom p bytes).within len = true := by
  induction bytes with
  | nil => intro _ _ _; rfl
  | cons v vs ih =>
    intro p len h
    simp only [List.length_cons] at h
    exact Memory.within_cons_op v (by omega) (ih (p + 1) len (by omega))

/-- What the loader loads lies inside the buffer. -/
theorem Memory.within_ofBytes (bytes : List Byte) : (Memory.ofBytes bytes).within bytes.length = true :=
  Memory.within_ofBytesFrom bytes 0 _ (by omega)

/-- Reset memory is in canonical form. -/
theorem State.reset_mem_wf : State.reset.mem.wf = true := rfl

end Sys2Proof.Machine
end

