-- ==== Sys2Proof/Laws/PerInstr.lean ====
section
/-! SUPPORT. Statements about every instruction as syntax, one lemma per constructor. -/

namespace Sys2Proof.Laws.EncodedLength

open Sys2Proof Sys2Proof.Machine

/-- The encoding has as many bytes as the length rule says (spec/30_encoding.md R79), 2, 3 or 4 (R60). -/
def Statement (i : Instr) : Prop := (encode i).length = i.length ∧ 2 ≤ i.length ∧ i.length ≤ 4

/-- The displacement bytes written are as many as the addressing mode has. -/
theorem encodeDisp_length (mod : BitVec 2) (rm : BitVec 3) (v : Word) :
    (encodeDisp (dlen mod rm) v).length = dlen mod rm := by
  rcases dlen_cases mod rm with h | h | h <;> simp [h, encodeDisp]

theorem movRm8R8 (f : MrmFields) : Statement (.movRm8R8 f) := by
  have := dlen_le f.mod f.rm
  simp [Statement, encode, encodeMrm, Instr.length, encodeDisp_length]; omega

theorem movRm16R16 (f : MrmFields) : Statement (.movRm16R16 f) := by
  have := dlen_le f.mod f.rm
  simp [Statement, encode, encodeMrm, Instr.length, encodeDisp_length]; omega

theorem movR8Rm8 (f : MrmFields) : Statement (.movR8Rm8 f) := by
  have := dlen_le f.mod f.rm
  simp [Statement, encode, encodeMrm, Instr.length, encodeDisp_length]; omega

theorem movR16Rm16 (f : MrmFields) : Statement (.movR16Rm16 f) := by
  have := dlen_le f.mod f.rm
  simp [Statement, encode, encodeMrm, Instr.length, encodeDisp_length]; omega

theorem movR8Imm8 (reg : BitVec 3) (imm : Byte) : Statement (.movR8Imm8 reg imm) := by
  simp [Statement, encode, Instr.length]

theorem movR16Imm16 (reg : BitVec 3) (imm : Word) : Statement (.movR16Imm16 reg imm) := by
  simp [Statement, encode, Instr.length]

end Sys2Proof.Laws.EncodedLength
end

