-- ==== Sys2Proof/Laws/Run.lean ====
section
/-! SUPPORT. Runs of several steps: how a run unfolds, and the induction over a run packaged once. -/

namespace Sys2Proof.Machine

theorem run_next {s t : State} (n : Nat) (h : step s = .next t) :
    Host.Core.run Sys2Proof.core (n + 1) s = Host.Core.run Sys2Proof.core n t := by
  have h' : Sys2Proof.core.step s = .next t := h
  simp only [Host.Core.run, h']

theorem run_fault {s : State} {f : Fault} (n : Nat) (h : step s = .fault f) :
    Host.Core.run Sys2Proof.core (n + 1) s = .fault f := by
  have h' : Sys2Proof.core.step s = .fault f := h
  simp only [Host.Core.run, h']

/-- What every step keeps holds at the end of every run that does not stop. -/
theorem run_keeps {P : State → Prop} (hstep : ∀ s t, P s → step s = .next t → P t) :
    ∀ n s t, P s → Host.Core.run Sys2Proof.core n s = .next t → P t := by
  intro n
  induction n with
  | zero => intro s t hs h; cases h; exact hs
  | succ n ih =>
    intro s t hs h
    rcases step_total s with ⟨u, hu⟩ | ⟨e, _, he⟩ | ⟨_, he⟩
    · rw [run_next n hu] at h; exact ih u t (hstep s u hs hu) h
    · rw [run_fault n he] at h; cases h
    · rw [run_fault n he] at h; cases h

/-- Runs compose. -/
theorem run_add (m : Nat) : ∀ (n : Nat) (s t : State), Host.Core.run Sys2Proof.core n s = .next t →
    Host.Core.run Sys2Proof.core (n + m) s = Host.Core.run Sys2Proof.core m t := by
  intro n
  induction n with
  | zero => intro s t h; cases h; rw [Nat.zero_add]
  | succ n ih =>
    intro s t h
    rcases step_total s with ⟨u, hu⟩ | ⟨e, _, he⟩ | ⟨_, he⟩
    · rw [run_next n hu] at h
      rw [show n + 1 + m = (n + m) + 1 by omega, run_next (n + m) hu]
      exact ih u t h
    · rw [run_fault n he] at h; cases h
    · rw [run_fault n he] at h; cases h

end Sys2Proof.Machine
end

