-- ==== Sys2Proof/Tests/Slice0.lean ====
section
/-! SUPPORT. The model's own tests. Expected results come from spec/95_test_vectors.md and the worked examples of
40_mov_regmem.md and 41_mov_imm.md. The second part holds one witness per statement with hypotheses, and per clause. -/

namespace Sys2Proof.Tests

open Sys2Proof Sys2Proof.Machine

/-- A pass under way over exactly these bytes, at an offset. -/
def under (bytes : List Byte) (pos : Nat := 0) : State := { (State.load (some bytes)).start with pos := pos }

/-- The state a step answers, if it answers one. -/
def after (s : State) : Option State :=
  match step s with
  | .next t => some t
  | .fault _ => none
  | .refused _ => none

/-- The fault a step answers, if it answers one. -/
def faultAfter (s : State) : Option Fault :=
  match step s with
  | .next _ => none
  | .fault f => some f
  | .refused _ => none

/-- A decode call at offset 0 of a buffer that holds exactly these bytes. -/
def call (bytes : List Byte) : DecodeResult := decodeCall (Memory.ofBytes bytes) bytes.length 0

/-- The ports of a call at offset 0, with 0x99 on the window bytes that do not exist. -/
def ports (bytes : List Byte) : Ports := portCore (driveWindow (Memory.ofBytes bytes) bytes.length 0 fun _ => 0x99#8)

/-- A record. -/
def rec3 (dst src : Operand) (length : Nat) : DecodedInstruction :=
  { mnemonic := .mov, dst := dst, src := src, length := length }

/-! ### Well-formedness: an ill-formed term for each check -/

theorem test_wf_refuses_stray_disp :
    (Instr.movRm8R8 { mod := 0b11#2, reg := 0#3, rm := 0#3, disp := 1#16 }).wf = false := by decide

theorem test_wf_refuses_disp8_out_of_range :
    (Instr.movR16Rm16 { mod := 0b01#2, reg := 0#3, rm := 0#3, disp := 0x0080#16 }).wf = false := by decide

theorem test_wf_accepts_direct_address :
    (Instr.movR16Rm16 { mod := 0b00#2, reg := 0#3, rm := 0b110#3, disp := 0x1234#16 }).wf = true := by decide

/-! ### Decoding: words written out bit by bit from 30_encoding.md R61, R62 -/

theorem test_decode_movRm8R8 : decode [0b10001000#8, 0b00000111#8] =
    .instr (.movRm8R8 { mod := 0b00#2, reg := 0b000#3, rm := 0b111#3, disp := 0#16 }) := by decide

theorem test_decode_movRm8R8_disp8 : decode [0b10001000#8, 0b01010110#8, 0b11111110#8] =
    .instr (.movRm8R8 { mod := 0b01#2, reg := 0b010#3, rm := 0b110#3, disp := 0xFFFE#16 }) := by decide

theorem test_decode_movRm16R16 : decode [0b10001001#8, 0b00011110#8, 0x34#8, 0x12#8] =
    .instr (.movRm16R16 { mod := 0b00#2, reg := 0b011#3, rm := 0b110#3, disp := 0x1234#16 }) := by decide

theorem test_decode_movR8Rm8 : decode [0b10001010#8, 0b11110100#8] =
    .instr (.movR8Rm8 { mod := 0b11#2, reg := 0b110#3, rm := 0b100#3, disp := 0#16 }) := by decide

theorem test_decode_movR16Rm16 : decode [0b10001011#8, 0b10000100#8, 0x00#8, 0x80#8] =
    .instr (.movR16Rm16 { mod := 0b10#2, reg := 0b000#3, rm := 0b100#3, disp := 0x8000#16 }) := by decide

theorem test_decode_movR8Imm8 : decode [0b10110100#8, 0xFF#8] = .instr (.movR8Imm8 0b100#3 0xFF#8) := by decide

theorem test_decode_movR16Imm16 : decode [0b10111000#8, 0x34#8, 0x12#8] = .instr (.movR16Imm16 0b000#3 0x1234#16) := by
  decide

theorem test_decode_rejects_neighbours :
    (decode [0x87#8, 0#8], decode [0x8C#8, 0xC0#8], decode [0xAF#8, 0#8], decode [0xC0#8, 0#8]) =
    (.reject (.unrecognizedOpcode 0x87#8), .reject (.unrecognizedOpcode 0x8C#8), .reject (.unrecognizedOpcode 0xAF#8),
      .reject (.unrecognizedOpcode 0xC0#8)) := by decide

theorem test_decodeTableWord :
    (decodeTableWord 8 0x89, decodeTableWord 8 0xB9, decodeTableWord 8 0xFF) =
    (some (.movRm16R16 { mod := 0#2, reg := 0#3, rm := 0#3, disp := 0#16 }), some (.movR16Imm16 1#3 0#16), none) := by
  decide

/-! ### Decode calls (95_test_vectors.md) -/

theorem test_call_S1 : call [0x89#8, 0xD9#8] = .ok (rec3 (.reg true 1#3) (.reg true 3#3) 2) := by decide
theorem test_call_S2 : call [0x8B#8, 0x41#8, 0x0C#8] = .ok (rec3 (.reg true 0#3) (.mem true 1#3 12#16) 3) := by decide
theorem test_call_direct : call [0x8B#8, 0x3E#8, 0xFF#8, 0xFF#8] =
    .ok (rec3 (.reg true 7#3) (.direct true 0xFFFF#16) 4) := by decide
theorem test_call_imm8_not_sign_extended : call [0xB7#8, 0x80#8] =
    .ok (rec3 (.reg false 7#3) (.imm false 0x0080#16) 2) := by decide
theorem test_call_truncated_imm16 : call [0xB8#8, 0x01#8] = .err (.bufferExhausted 2) := by decide
theorem test_call_truncated_disp16 : call [0x8A#8, 0x06#8, 0x34#8] = .err (.bufferExhausted 3) := by decide
theorem test_call_unrecognized_last_byte : call [0xFF#8] = .err (.unrecognizedOpcode 0xFF#8 0) := by decide
theorem test_call_desynchronised :
    decodeCall (Memory.ofBytes [0xB1#8, 0x0C#8, 0x89#8, 0xD9#8]) 4 1 = .err (.unrecognizedOpcode 0x0C#8 1) := by decide

/-! ### Ports (95_test_vectors.md, columns port dst / src and port) -/

theorem test_ports_mem_dst : ports [0x88#8, 0x56#8, 0xFE#8] =
    { ok := 1#1, mnem := 0#1, length := 3#3, dst := 0x16FFFE#22, src := 0x020000#22, errKind := 0#2, errOff := 0#2,
      errByte := 0#8 } := by decide

theorem test_ports_direct_dst : ports [0x89#8, 0x1E#8, 0x34#8, 0x12#8] =
    { ok := 1#1, mnem := 0#1, length := 4#3, dst := 0x2E1234#22, src := 0x0B0000#22, errKind := 0#2, errOff := 0#2,
      errByte := 0#8 } := by decide

theorem test_ports_imm : ports [0xBC#8, 0x00#8, 0x80#8] =
    { ok := 1#1, mnem := 0#1, length := 3#3, dst := 0x0C0000#22, src := 0x388000#22, errKind := 0#2, errOff := 0#2,
      errByte := 0#8 } := by decide

theorem test_ports_truncated : ports [0x8B#8, 0x41#8] = errPorts 0b10#2 2#2 0#8 := by decide
theorem test_ports_unrecognized : ports [0xA3#8, 0#8, 0#8] = errPorts 0b01#2 0#2 0xA3#8 := by decide
theorem test_ports_empty : ports [] = errPorts 0b10#2 0#2 0#8 := by decide

/-! ### One step of each instruction, run from bytes -/

theorem test_step_movRm8R8 : (after (under [0x88#8, 0xAD#8, 0x10#8, 0x00#8])).map (fun t => (t.pos, t.written)) =
    some (4, [.bits16, .instruction (rec3 (.mem false 5#3 0x0010#16) (.reg false 5#3) 4)]) := by decide

theorem test_step_movRm16R16 : (after (under [0x89#8, 0x4F#8, 0x01#8])).map (fun t => (t.pos, t.written)) =
    some (3, [.bits16, .instruction (rec3 (.mem true 7#3 0x0001#16) (.reg true 1#3) 3)]) := by decide

theorem test_step_movR8Rm8 : (after (under [0x8A#8, 0x46#8, 0x00#8])).map (fun t => (t.pos, t.written)) =
    some (3, [.bits16, .instruction (rec3 (.reg false 0#3) (.mem false 6#3 0#16) 3)]) := by decide

theorem test_step_movR16Rm16 : (after (under [0x8B#8, 0x40#8, 0x80#8])).map (fun t => (t.pos, t.written)) =
    some (3, [.bits16, .instruction (rec3 (.reg true 0#3) (.mem true 0#3 0xFF80#16) 3)]) := by decide

theorem test_step_movR8Imm8 : (after (under [0xB1#8, 0x0C#8, 0x99#8])).map (fun t => (t.pos, t.written)) =
    some (2, [.bits16, .instruction (rec3 (.reg false 1#3) (.imm false 12#16) 2)]) := by decide

theorem test_step_movR16Imm16 : (after (under [0xBF#8, 0xFF#8, 0xFF#8])).map (fun t => (t.pos, t.written)) =
    some (3, [.bits16, .instruction (rec3 (.reg true 7#3) (.imm true 0xFFFF#16) 3)]) := by decide

/-- L3-3: the truncated immediate at offset 2 stops the pass, and `pos` is not advanced. -/
theorem test_step_takes_error :
    (after (under [0x88#8, 0xC3#8, 0xB8#8, 0x01#8] 2)).map (fun t => (t.pos, t.phase, t.written)) =
    some (2, .failed (.bufferExhausted 4), [.bits16]) := by decide

theorem test_step_failed_pass_faults :
    faultAfter { under [0xFF#8] with phase := .failed (.unrecognizedOpcode 0xFF#8 0) } =
    some (.unrecognizedOpcode 0xFF#8 0) := by decide

theorem test_first_step_after_reset :
    (after (State.reset.withFetchWord 8 0xB1)).map (fun t => (t.pos, t.len, t.written)) =
    some (2, 4, [.bits16, .instruction (rec3 (.reg false 1#3) (.imm false 0#16) 2)]) := by decide

/-! ### Text (95_test_vectors.md, column text) -/

/-- The text of the record a call returns. -/
def text (spelling : NegDispText) (bytes : List Byte) : Option Text :=
  match call bytes with
  | .ok r => some (lineTextWith spelling (.instruction r))
  | .err _ => none

theorem test_text_S2 : text .minus [0x8B#8, 0x41#8, 0x0C#8] = some "mov ax, [bx + di + 12]".toList := by decide
theorem test_text_zero_disp : text .minus [0x8A#8, 0x46#8, 0x00#8] = some "mov al, [bp]".toList := by decide
theorem test_text_direct : text .minus [0x89#8, 0x1E#8, 0x34#8, 0x12#8] = some "mov [4660], bx".toList := by decide
theorem test_text_imm : text .minus [0xBC#8, 0x00#8, 0x80#8] = some "mov sp, 32768".toList := by decide
theorem test_text_negative : text .plusNegative [0x8B#8, 0x84#8, 0x00#8, 0x80#8] =
    some "mov ax, [si + -32768]".toList := by decide
theorem test_text_negative_minus : text .minus [0x88#8, 0x56#8, 0xFE#8] = some "mov [bp - 2], dl".toList := by decide

/-! ### The driver's loop (95_test_vectors.md, Programs L3-3, L3-4, L3-6) -/

theorem test_pass_truncated : (fun p : PassEnd => (p.pos, p.calls, p.phase))
    (pass (Memory.ofBytes [0x88#8, 0xC3#8, 0xB8#8, 0x01#8]) 4) = (2, 2, .failed (.bufferExhausted 4)) := by decide

theorem test_pass_empty : (fun p : PassEnd => (p.pos, p.calls, p.written, exitStatus p.phase)) (pass [] 0) =
    (0, 0, [.bits16], some 0) := by decide

/-! ### Witnesses: states and operands that meet the hypotheses of each statement -/

theorem witness_RecognizerComparesAfterMasking :
    0 < 1 ∧ recognize ((Memory.ofBytes [0xFF#8]).read 0) = none := by decide

theorem witness_RecognizedSetIsTwentyBytes :
    recognizerTable.reverse.Perm recognizerTable ∧
    decode [0x88#8, 0xC0#8] = .instr (.movRm8R8 { mod := 3#2, reg := 0#3, rm := 0#3, disp := 0#16 }) ∧
    decode [0x89#8, 0xC0#8] = .instr (.movRm16R16 { mod := 3#2, reg := 0#3, rm := 0#3, disp := 0#16 }) ∧
    decode [0x8A#8, 0xC0#8] = .instr (.movR8Rm8 { mod := 3#2, reg := 0#3, rm := 0#3, disp := 0#16 }) ∧
    decode [0x8B#8, 0xC0#8] = .instr (.movR16Rm16 { mod := 3#2, reg := 0#3, rm := 0#3, disp := 0#16 }) ∧
    decode [0xB0#8, 0#8] = .instr (.movR8Imm8 0#3 0#8) ∧ decode [0xB7#8, 0#8] = .instr (.movR8Imm8 7#3 0#8) ∧
    decode [0xB8#8, 0#8, 0#8] = .instr (.movR16Imm16 0#3 0#16) ∧
    decode [0xBF#8, 0#8, 0#8] = .instr (.movR16Imm16 7#3 0#16) :=
  ⟨List.reverse_perm _, by decide⟩

theorem witness_PrefixBytesAreUnrecognized :
    0 < 2 ∧ (Memory.ofBytes [0xF3#8, 0x8B#8]).read 0 ∈
      [0x26#8, 0x2E#8, 0x36#8, 0x3E#8, 0xF0#8, 0xF2#8, 0xF3#8] := by decide

/-- Each clause: byte2 missing, byte3 missing, byte4 missing, and a record of 2, 3 and 4 bytes. -/
theorem witness_MrmHandlerResult :
    recognize ((Memory.ofBytes [0x8B#8]).read 0) = some .mrm ∧
    call [0x8B#8] = .err (.bufferExhausted 1) ∧ call [0x8B#8, 0x40#8] = .err (.bufferExhausted 2) ∧
    call [0x8B#8, 0x80#8, 0x00#8] = .err (.bufferExhausted 3) ∧
    call [0x8B#8, 0xC1#8] = .ok (rec3 (.reg true 0#3) (.reg true 1#3) 2) ∧
    call [0x88#8, 0x40#8, 0x7F#8] = .ok (rec3 (.mem false 0#3 0x7F#16) (.reg false 0#3) 3) ∧
    call [0x8B#8, 0x80#8, 0xFF#8, 0x7F#8] = .ok (rec3 (.reg true 0#3) (.mem true 0#3 0x7FFF#16) 4) := by decide

theorem witness_ImmHandlerResult :
    recognize ((Memory.ofBytes [0xB8#8]).read 0) = some .imm ∧
    call [0xB8#8] = .err (.bufferExhausted 1) ∧ call [0xB8#8, 0x00#8] = .err (.bufferExhausted 2) ∧
    call [0xB8#8, 0x01#8, 0x02#8] = .ok (rec3 (.reg true 0#3) (.imm true 0x0201#16) 3) ∧
    call [0xB0#8, 0xFF#8] = .ok (rec3 (.reg false 0#3) (.imm false 0x00FF#16) 2) := by decide

/-- A record of each length: DecodedRecordShape, ConsumedLengthByForm (a case of each mode and of each `w`). -/
theorem witness_DecodedRecordShape_ConsumedLengthByForm :
    call [0x8B#8, 0xC1#8] = .ok (rec3 (.reg true 0#3) (.reg true 1#3) 2) ∧
    call [0x8B#8, 0x06#8, 0#8, 0#8] = .ok (rec3 (.reg true 0#3) (.direct true 0#16) 4) ∧
    call [0x8B#8, 0x07#8] = .ok (rec3 (.reg true 0#3) (.mem true 7#3 0#16) 2) ∧
    call [0x8B#8, 0x46#8, 0#8] = .ok (rec3 (.reg true 0#3) (.mem true 6#3 0#16) 3) ∧
    call [0x8B#8, 0x86#8, 0#8, 0#8] = .ok (rec3 (.reg true 0#3) (.mem true 6#3 0#16) 4) ∧
    call [0xB0#8, 0#8] = .ok (rec3 (.reg false 0#3) (.imm false 0#16) 2) ∧
    call [0xB8#8, 0#8, 0#8] = .ok (rec3 (.reg true 0#3) (.imm true 0#16) 3) := by decide

theorem witness_ImmediateIsUnsignedLittleEndian :
    (recognize ((Memory.ofBytes [0xBF#8, 0xFF#8, 0xFF#8]).read 0) = some .imm ∧
      immW ((Memory.ofBytes [0xBF#8, 0xFF#8, 0xFF#8]).read 0) = true ∧
      call [0xBF#8, 0xFF#8, 0xFF#8] = .ok (rec3 (.reg true 7#3) (.imm true 0xFFFF#16) 3)) ∧
    (recognize ((Memory.ofBytes [0xB7#8, 0xFF#8]).read 0) = some .imm ∧
      immW ((Memory.ofBytes [0xB7#8, 0xFF#8]).read 0) = false ∧
      call [0xB7#8, 0xFF#8] = .ok (rec3 (.reg false 7#3) (.imm false 0xFF#16) 2)) := by decide

theorem witness_DirectAddressCase :
    0 + 4 ≤ 4 ∧ recognize ((Memory.ofBytes [0x88#8, 0x06#8, 0xFF#8, 0xFF#8]).read 0) = some .mrm ∧
    modField ((Memory.ofBytes [0x88#8, 0x06#8, 0xFF#8, 0xFF#8]).read 1) = 0b00#2 ∧
    rmField ((Memory.ofBytes [0x88#8, 0x06#8, 0xFF#8, 0xFF#8]).read 1) = 0b110#3 := by decide

theorem witness_LengthFixedByFirstTwoBytes :
    call [0xB8#8, 0#8, 0#8] = .ok (rec3 (.reg true 0#3) (.imm true 0#16) 3) ∧
    call [0xB8#8, 1#8, 1#8] = .ok (rec3 (.reg true 0#3) (.imm true 0x0101#16) 3) ∧
    call [0x8B#8, 0x46#8, 0#8] = .ok (rec3 (.reg true 0#3) (.mem true 6#3 0#16) 3) ∧
    call [0x8B#8, 0x46#8, 1#8] = .ok (rec3 (.reg true 0#3) (.mem true 6#3 1#16) 3) := by decide

/-- The six clauses of ErrorPrecedence at their edges. -/
theorem witness_ErrorPrecedence :
    call [] = .err (.bufferExhausted 0) ∧ call [0xFF#8] = .err (.unrecognizedOpcode 0xFF#8 0) ∧
    call [0x89#8] = .err (.bufferExhausted 1) ∧ call [0x8B#8, 0x41#8] = .err (.bufferExhausted 2) ∧
    call [0x8B#8, 0x84#8, 0x00#8] = .err (.bufferExhausted 3) ∧
    call [0x8A#8, 0x00#8] = .ok (rec3 (.reg false 0#3) (.mem false 0#3 0#16) 2) := by decide

/-- UnrecognizedOpcodeIsExact and BoundsCheckGuardsEveryRead: a call with each error, at each offset 0 to 3. -/
theorem witness_UnrecognizedOpcodeIsExact_BoundsCheckGuardsEveryRead :
    decodeTraced (Memory.ofBytes [0xC0#8]) 1 0 = { result := .err (.unrecognizedOpcode 0xC0#8 0), reads := [0] } ∧
    decodeTraced [] 0 0 = { result := .err (.bufferExhausted 0), reads := [] } ∧
    decodeTraced (Memory.ofBytes [0x8B#8]) 1 0 = { result := .err (.bufferExhausted 1), reads := [0] } ∧
    decodeTraced (Memory.ofBytes [0x8B#8, 0x40#8]) 2 0 = { result := .err (.bufferExhausted 2), reads := [0, 1] } ∧
    decodeTraced (Memory.ofBytes [0x8B#8, 0x80#8, 1#8]) 3 0 =
      { result := .err (.bufferExhausted 3), reads := [0, 1, 2] } := by decide

/-- Two buffers that differ past the bytes the call reads, on a record and on a missing byte. -/
theorem witness_CallReadsExactlyItsBytes :
    (∀ p ∈ (decodeTraced (Memory.ofBytes [0x8A#8, 0x00#8]) 2 0).reads,
      p < 3 ∧ (Memory.ofBytes [0x8A#8, 0x00#8, 0x99#8]).read p = (Memory.ofBytes [0x8A#8, 0x00#8]).read p) ∧
    (∀ p ∈ (decodeTraced (Memory.ofBytes [0xB8#8, 0x01#8]) 2 0).reads,
      p < 2 ∧ (Memory.ofBytes [0xB8#8, 0x01#8]).read p = (Memory.ofBytes [0xB8#8, 0x01#8]).read p) ∧
    call [0xB8#8, 0x01#8] = .err (.bufferExhausted 2) ∧ 2 ≤ 2 := by decide

/-- V-IDEM: `89 D9` at offset 2 of one buffer and alone in another. -/
theorem witness_DecodeIsPositionIndependent :
    windowBytes (Memory.ofBytes [0xB1#8, 0x0C#8, 0x89#8, 0xD9#8]) 4 2 = windowBytes (Memory.ofBytes [0x89#8, 0xD9#8]) 2 0 ∧
    decodeCall (Memory.ofBytes [0xB1#8, 0x0C#8, 0x89#8, 0xD9#8]) 4 2 =
      .ok (rec3 (.reg true 1#3) (.reg true 3#3) 2) := by decide

theorem witness_RegisterMemoryCornerCases :
    ({ mod := 0b01#2, reg := 2#3, rm := 6#3, disp := 0xFFFE#16 } : MrmFields).mod ≠ 0b11#2 := by decide

/-- Two windows that agree on the bytes needed and differ after them, on a record and on an error. -/
theorem witness_PortsIgnoreUnneededBytes :
    (∀ i, i < 2 → Window.win { win0 := 0x8A#8, win1 := 0#8, win2 := 1#8, win3 := 2#8, avail := 4#3 } i =
      Window.win { win0 := 0x8A#8, win1 := 0#8, win2 := 3#8, win3 := 4#8, avail := 4#3 } i) ∧
    (portCore { win0 := 0x8A#8, win1 := 0#8, win2 := 3#8, win3 := 4#8, avail := 4#3 }).length = 2#3 ∧
    (portCore { win0 := 0x8A#8, win1 := 0#8, win2 := 3#8, win3 := 4#8, avail := 4#3 }).ok = 1#1 ∧
    (portCore { win0 := 0x8B#8, win1 := 0x41#8, win2 := 3#8, win3 := 4#8, avail := 2#3 }).errOff = 2#2 := by decide

theorem witness_PortOutputsByVariant :
    (ports [0xB0#8, 0#8]).ok = 1#1 ∧ (ports [0xFF#8]).ok = 0#1 ∧ (ports [0xFF#8]).errKind = 0b01#2 ∧
    (ports [0xB0#8]).ok = 0#1 ∧ (ports [0xB0#8]).errKind = 0b10#2 := by decide

/-- A record and both errors, the last at offset 3 of its call. -/
theorem witness_PortOutputsByVariant_calls :
    call [0x8A#8, 0xC8#8] = .ok (rec3 (.reg false 1#3) (.reg false 0#3) 2) ∧
    (ports [0x8A#8, 0xC8#8]).dst = 0x010000#22 ∧ (ports [0x8A#8, 0xC8#8]).src = 0#22 ∧
    call [0xFF#8] = .err (.unrecognizedOpcode 0xFF#8 0) ∧
    call [0x8B#8, 0x80#8, 1#8] = .err (.bufferExhausted 3) := by decide

theorem witness_OperandRendering :
    0 < signed16 1#16 ∧ 0 < signed16 0x7FFF#16 ∧ signed16 0xFFFF#16 < 0 ∧ signed16 0x8000#16 < 0 := by decide

theorem witness_ProgramTextFormat :
    Host.Core.run Sys2Proof.core (1 + 1) (State.load (some [0xB0#8, 0#8])) =
      .next { mem := [(0, 0xB0#8)], len := 2, pos := 2, phase := .running
              written := [.bits16, .instruction (rec3 (.reg false 0#3) (.imm false 0#16) 2)] } := rfl

theorem witness_StepRunsDecodedInstruction :
    (under [0xB1#8, 0x0C#8]).phase = .running ∧ (under [0xB1#8, 0x0C#8]).pos < (under [0xB1#8, 0x0C#8]).len ∧
    decode (under [0xB1#8, 0x0C#8]).window = .instr (.movR8Imm8 1#3 12#8) := by decide

theorem witness_StepRunsEncodedInstruction :
    (under [0xB1#8, 0x0C#8, 0x99#8]).phase = .running ∧ (Instr.movR8Imm8 1#3 12#8).wf = true ∧
    ∀ k, k < (encode (.movR8Imm8 1#3 12#8)).length →
      byteAt (under [0xB1#8, 0x0C#8, 0x99#8]).mem (under [0xB1#8, 0x0C#8, 0x99#8]).len
        ((under [0xB1#8, 0x0C#8, 0x99#8]).pos + k) = (encode (.movR8Imm8 1#3 12#8))[k]? := by decide

/-- The three turns of the loop. -/
theorem witness_StepIsOneTurnOfDriverLoop :
    ((under [0xB1#8, 0x0C#8]).phase = .running ∧
      decodeCall (under [0xB1#8, 0x0C#8]).mem 2 0 = .ok (rec3 (.reg false 1#3) (.imm false 12#16) 2)) ∧
    ((under [0xB1#8]).phase = .running ∧ decodeCall (under [0xB1#8]).mem 1 0 = .err (.bufferExhausted 1)) ∧
    ((under [0xB1#8, 0x0C#8] 2).phase = .running ∧ (under [0xB1#8, 0x0C#8] 2).len ≤ (under [0xB1#8, 0x0C#8] 2).pos) := by
  decide

theorem witness_MachineRunIsSpecPass : (State.load (some [0xB1#8, 0x0C#8])).Ready := ⟨rfl, rfl, rfl⟩

/-- States that meet the invariant and step on, one for each way a step goes. -/
theorem witness_StepKeepsInvariant :
    (State.load (some [0xB0#8, 5#8, 0xFF#8])).Inv ∧ (under [0xB0#8, 5#8, 0xFF#8]).Inv ∧
    (∃ t, step (State.load (some [0xB0#8, 5#8, 0xFF#8])) = .next t) ∧ ∃ t, step (under [0xB0#8, 5#8, 0xFF#8]) = .next t :=
  ⟨⟨⟨rfl, rfl⟩, by decide, rfl, rfl, rfl⟩, ⟨⟨rfl, rfl⟩, by decide, ⟨[], rfl, rfl⟩, rfl, trivial⟩, ⟨_, rfl⟩, ⟨_, rfl⟩⟩

theorem witness_StepNeverWritesBuffer : ∃ t, step (under [0xB0#8, 5#8]) = .next t := ⟨_, rfl⟩

/-- Both ways the offset can go, and a width that holds the length. -/
theorem witness_OffsetAdvancesByLengthOnly :
    ((under [0xB0#8, 5#8]).pos ≤ 2 ∧ ∃ t, step (under [0xB0#8, 5#8]) = .next t ∧ t.pos = 2) ∧
    ((under [0xFF#8]).pos ≤ 1 ∧ ∃ t, step (under [0xFF#8]) = .next t ∧ t.pos = 0) ∧
    Config.FitsPosition (State.load (some [])).len :=
  ⟨⟨by decide, _, rfl, rfl⟩, ⟨by decide, _, rfl, rfl⟩, Nat.two_pow_pos _⟩

theorem witness_ErrorStopsPassForGood :
    (under [0xFF#8]).phase = .running ∧ (under [0xFF#8]).pos < (under [0xFF#8]).len ∧
    decodeCall (under [0xFF#8]).mem (under [0xFF#8]).len (under [0xFF#8]).pos = .err (.unrecognizedOpcode 0xFF#8 0) := by
  decide

theorem witness_StepOutsideTheLoop :
    (State.load (some [])).phase = .idle ∧
    ({ under [0xFF#8] with phase := .failed (.unrecognizedOpcode 0xFF#8 0) } : State).phase =
      .failed (.unrecognizedOpcode 0xFF#8 0) ∧
    ({ under [0xB0#8] with phase := .failed (.bufferExhausted 1) } : State).phase = .failed (.bufferExhausted 1) ∧
    (State.load none).phase = .sourceUnavailable ∧ (under []).complete.phase = .completed := by decide

theorem witness_SourceUnavailableBeforeDecoding :
    Host.Core.run Sys2Proof.core 0 (State.load none) = .next (State.load none) := rfl

/-- Both ends of a pass occur. -/
theorem witness_ExitStatusTellsHowPassEnded :
    (pass (Memory.ofBytes [0xB0#8, 5#8]) 2).phase = .completed ∧
    (pass (Memory.ofBytes [0xB0#8, 5#8, 0xFF#8, 0#8]) 4).phase = .failed (.unrecognizedOpcode 0xFF#8 2) := by decide

theorem witness_EncodedStreamDecodesBack :
    ∀ i ∈ [Instr.movR8Imm8 0#3 5#8, .movRm16R16 { mod := 0b01#2, reg := 1#3, rm := 7#3, disp := 0xFF80#16 }],
      i.wf = true := by decide

theorem witness_InstructionFrame : ∃ t, exec (.movR8Imm8 0#3 5#8) (under [0xB0#8, 5#8]) = .next t := ⟨_, rfl⟩

/-- A well-formed term of each addressing mode, at the edges of its displacement. -/
theorem witness_DecodeInvertsEncode :
    (Instr.movRm8R8 { mod := 0b11#2, reg := 7#3, rm := 7#3, disp := 0#16 }).wf = true ∧
    (Instr.movRm16R16 { mod := 0b00#2, reg := 7#3, rm := 7#3, disp := 0#16 }).wf = true ∧
    (Instr.movR8Rm8 { mod := 0b00#2, reg := 7#3, rm := 6#3, disp := 0xFFFF#16 }).wf = true ∧
    (Instr.movR16Rm16 { mod := 0b01#2, reg := 7#3, rm := 6#3, disp := 0xFF80#16 }).wf = true ∧
    (Instr.movR16Rm16 { mod := 0b10#2, reg := 7#3, rm := 6#3, disp := 0x8000#16 }).wf = true ∧
    (Instr.movR8Imm8 7#3 0xFF#8).wf = true ∧ (Instr.movR16Imm16 7#3 0xFFFF#16).wf = true := by decide

theorem witness_DecodedBytesAreTheEncoding :
    decode [0x88#8, 0x56#8, 0xFE#8, 0x99#8] =
      .instr (.movRm8R8 { mod := 0b01#2, reg := 2#3, rm := 6#3, disp := 0xFFFE#16 }) := by decide

theorem witness_BufferReadAfterWrite : Memory.wf [(1, 0x12#8), (4, 0x34#8)] = true := by decide

theorem witness_EqualBuffersAreEqualData :
    Memory.wf [(1, 0x12#8)] = true ∧ Memory.within [(1, 0x12#8)] 3 = true := by decide

theorem witness_PlacedTableWordRuns :
    State.reset.mem.wf = true ∧
    decodeTableWord 8 0x8A = some (.movR8Rm8 { mod := 0#2, reg := 0#3, rm := 0#3, disp := 0#16 }) := by decide

/-- Three decoders, two over one buffer and one over another, beside a driver that names no buffer. -/
def threeDecoders : Instances :=
  let at0 (buffer : Nat) : DriverState := { buffer := buffer, pos := 0, phase := .running, written := [.bits16] }
  { buffers := [{ mem := Memory.ofBytes [0xB1#8, 0x0C#8], len := 2 }, { mem := Memory.ofBytes [0xFF#8], len := 1 }]
    drivers := [at0 0, at0 0, at0 1, at0 2] }

/-- R162: in one round the first and the third step at once, over different buffers. -/
theorem test_round_over_different_buffers :
    let g := threeDecoders.stepRound [0, 2]
    g.drivers.map (·.pos) = [2, 0, 0, 0] ∧
    g.drivers.map (·.phase) = [.running, .running, .failed (.unrecognizedOpcode 0xFF#8 0), .running] ∧
    (g.view 2).map (·.mem) = some [(0, 0xFF#8)] ∧ (g.view 3) = none := by decide

/-- R162: two decoders of one buffer, at once. -/
theorem test_round_over_one_buffer :
    let g := threeDecoders.stepRound [0, 1, 3]
    g.drivers.map (·.pos) = [2, 2, 0, 0] ∧ g.view 0 = g.view 1 := by decide

end Sys2Proof.Tests
end

section
/-! SUPPORT. The statements of 10_state.md: the state, the decode call, the driver's loop and the ports. The decoder is tied to
the encoder first; what a call and a step can do follows from that, and each statement from these. -/

namespace Sys2Proof.Machine

/-! ### The decoder against the encoder -/

/-- A displacement a form with `n` displacement bytes can carry (30_encoding.md R73). -/
def DispFits (n : Nat) (disp : Word) : Prop :=
  (n = 0 → disp = 0#16) ∧ (n = 1 → disp = sext16 (loByte disp))

theorem wf_iff_dispFits (f : MrmFields) : f.wf = true ↔ DispFits (dlen f.mod f.rm) f.disp := by
  simp [MrmFields.wf, MrmFields.noStrayDisp, MrmFields.disp8InRange, DispFits, imp_iff_not_or]

@[simp] theorem wf_mrmInstr (d w : Bool) (f : MrmFields) : (mrmInstr d w f).wf = f.wf := by
  cases d <;> cases w <;> rfl

@[simp] theorem encode_mrmInstr (d w : Bool) (f : MrmFields) : encode (mrmInstr d w f) = encodeMrm d w f := by
  cases d <;> cases w <;> rfl

theorem encode_length (i : Instr) : (encode i).length = i.length := by
  cases i with
  | movRm8R8 f => exact (Laws.EncodedLength.movRm8R8 f).1
  | movRm16R16 f => exact (Laws.EncodedLength.movRm16R16 f).1
  | movR8Rm8 f => exact (Laws.EncodedLength.movR8Rm8 f).1
  | movR16Rm16 f => exact (Laws.EncodedLength.movR16Rm16 f).1
  | movR8Imm8 reg imm => rfl
  | movR16Imm16 reg imm => rfl

theorem instr_length_cases (i : Instr) : i.length = 2 ∨ i.length = 3 ∨ i.length = 4 :=
  recordOf_length i ▸ recordOf_length_cases i

theorem decodeDisp_encodeDisp {n : Nat} (hn : n ≤ 2) {disp : Word} (h : DispFits n disp) (rest : List Byte) :
    decodeDisp n (encodeDisp n disp ++ rest) = .ok disp := by
  obtain ⟨h0, h1⟩ := h
  obtain rfl | rfl | rfl : n = 0 ∨ n = 1 ∨ n = 2 := by omega
  · rcases rest with _ | ⟨lo, _ | ⟨hi, rest⟩⟩ <;> simp [encodeDisp, decodeDisp, displacement, h0 rfl]
  · cases rest <;> simp [encodeDisp, decodeDisp, displacement, ← h1 rfl]
  · simp [encodeDisp, decodeDisp, displacement]

/-- The displacement parser reads what `encodeDisp` writes for a value the form can carry, or there are too few bytes. -/
theorem decodeDisp_cases {n : Nat} (hn : n ≤ 2) (bs : List Byte) :
    (∃ disp rest, DispFits n disp ∧ bs = encodeDisp n disp ++ rest ∧ decodeDisp n bs = .ok disp) ∨
    (bs.length ≤ 1 ∧ decodeDisp n bs = .error (.bufferExhausted (bs.length + 2))) := by
  have fits {disp : Word} {rest : List Byte} (h : DispFits n disp) (hb : bs = encodeDisp n disp ++ rest) :
      ∃ disp rest, DispFits n disp ∧ bs = encodeDisp n disp ++ rest ∧ decodeDisp n bs = .ok disp :=
    ⟨disp, rest, h, hb, hb ▸ decodeDisp_encodeDisp hn h rest⟩
  obtain rfl | rfl | rfl : n = 0 ∨ n = 1 ∨ n = 2 := by omega
  · exact .inl (fits (disp := 0#16) (rest := bs) (by simp [DispFits]) rfl)
  · cases bs with
    | nil => exact .inr ⟨by simp, rfl⟩
    | cons lo bs => exact .inl (fits (disp := sext16 lo) (rest := bs) (by simp [DispFits]) (by simp [encodeDisp]))
  · rcases bs with _ | ⟨lo, _ | ⟨hi, bs⟩⟩
    · exact .inr ⟨by simp, rfl⟩
    · exact .inr ⟨by simp, rfl⟩
    · exact .inl (fits (disp := le16 lo hi) (rest := bs) (by simp [DispFits]) (by simp [encodeDisp]))

theorem decode_encodeMrm (d w : Bool) {f : MrmFields} (h : f.wf = true) (rest : List Byte) :
    decode (encodeMrm d w f ++ rest) = .instr (mrmInstr d w f) := by
  have hd := decodeDisp_encodeDisp (dlen_le f.mod f.rm) ((wf_iff_dispFits f).1 h) rest
  simp [encodeMrm, decode, decodeMrmBytes, hd]

/-- Decoding inverts encoding, whatever bytes follow. -/
theorem decode_encode_append {i : Instr} (h : i.wf = true) (rest : List Byte) :
    decode (encode i ++ rest) = .instr i := by
  cases i with
  | movRm8R8 f => exact decode_encodeMrm false false h rest
  | movRm16R16 f => exact decode_encodeMrm false true h rest
  | movR8Rm8 f => exact decode_encodeMrm true false h rest
  | movR16Rm16 f => exact decode_encodeMrm true true h rest
  | movR8Imm8 reg imm => simp [encode, decode, decodeImmBytes]
  | movR16Imm16 reg imm => simp [encode, decode, decodeImmBytes]

/-- Bytes that begin with the encoding of a well-formed instruction. -/
def BeginsWithEncoding (bs : List Byte) : Prop := ∃ i rest, i.wf = true ∧ bs = encode i ++ rest

/-- Bytes too few for the instruction they begin. -/
def RunsOut (bs : List Byte) : Prop := bs.length ≤ 3 ∧ decode bs = .reject (.bufferExhausted bs.length)

theorem decode_cases_of_mrm {b : Byte} (hr : recognize b = some .mrm) (bs : List Byte) :
    BeginsWithEncoding (b :: bs) ∨ RunsOut (b :: bs) := by
  cases bs with
  | nil => right; simp [RunsOut, decode, hr, decodeMrmBytes]
  | cons b2 bs =>
    rcases decodeDisp_cases (dlen_le (modField b2) (rmField b2)) bs with ⟨disp, rest, hf, hb, _⟩ | ⟨hl, he⟩
    · left
      refine ⟨mrmInstr (mrmD b) (mrmW b) ⟨modField b2, regField b2, rmField b2, disp⟩, rest, ?_, ?_⟩
      · simpa [wf_iff_dispFits] using hf
      · simp [encodeMrm, mrmByte1_of_recognize hr, mrmByte2_fields, ← hb]
    · right; simp [RunsOut, decode, hr, decodeMrmBytes, he]; omega

theorem decode_cases_of_imm {b : Byte} (hr : recognize b = some .imm) (bs : List Byte) :
    BeginsWithEncoding (b :: bs) ∨ RunsOut (b :: bs) := by
  have hb := immByte1_of_recognize hr
  rcases bs with _ | ⟨lo, bs⟩
  · right; cases hw : immW b <;> simp [RunsOut, decode, hr, decodeImmBytes, hw]
  · cases hw : immW b with
    | false => left; exact ⟨.movR8Imm8 (immReg b) lo, bs, rfl, by simp [encode, ← hw, hb]⟩
    | true =>
      rcases bs with _ | ⟨hi, bs⟩
      · right; simp [RunsOut, decode, hr, decodeImmBytes, hw]
      · left; exact ⟨.movR16Imm16 (immReg b) (le16 lo hi), bs, rfl, by simp [encode, ← hw, hb]⟩

/-- Everything the decoder can find in bytes: the encoding of a well-formed instruction at their head, an unrecognized byte1,
or too few bytes. -/
theorem decode_cases (bs : List Byte) :
    (∃ i rest, i.wf = true ∧ bs = encode i ++ rest ∧ decode bs = .instr i) ∨
    (∃ b rest, recognize b = none ∧ bs = b :: rest ∧ decode bs = .reject (.unrecognizedOpcode b)) ∨
    RunsOut bs := by
  have encoded (h : BeginsWithEncoding bs) :
      ∃ i rest, i.wf = true ∧ bs = encode i ++ rest ∧ decode bs = .instr i := by
    obtain ⟨i, rest, hw, rfl⟩ := h
    exact ⟨i, rest, hw, rfl, decode_encode_append hw rest⟩
  cases bs with
  | nil => exact .inr (.inr ⟨by simp, rfl⟩)
  | cons b bs =>
    cases hr : recognize b with
    | none => exact .inr (.inl ⟨b, bs, hr, rfl, by simp [decode, hr]⟩)
    | some family =>
      cases family with
      | mrm => exact (decode_cases_of_mrm hr bs).imp encoded .inr
      | imm => exact (decode_cases_of_imm hr bs).imp encoded .inr

/-- Bytes that decode begin with the encoding of what they decode to. -/
theorem encode_of_decode {bs : List Byte} {i : Instr} (h : decode bs = .instr i) :
    i.wf = true ∧ ∃ rest, bs = encode i ++ rest := by
  rcases decode_cases bs with ⟨j, rest, hw, hb, hd⟩ | ⟨b, rest, _, _, hd⟩ | ⟨_, hd⟩
  · cases hd.symm.trans h; exact ⟨hw, rest, hb⟩
  · cases hd.symm.trans h
  · cases hd.symm.trans h

/-! ### The bytes ahead of the driver -/

/-- The bytes from the driver's offset to the end of the buffer. -/
def State.ahead (s : State) : List Byte := (List.range' s.pos (s.len - s.pos)).map s.mem.read

@[simp] theorem State.ahead_length (s : State) : s.ahead.length = s.len - s.pos := by simp [State.ahead]

/-- The window shows the first four bytes ahead. -/
theorem State.window_eq_take_ahead (s : State) : s.window = s.ahead.take 4 := by
  have ha : available s.len s.pos = min 4 (s.len - s.pos) := by unfold available maxLength; split <;> omega
  simp [State.window, windowBytes, State.ahead, ← List.map_take, ha, List.range'_eq_map_range]

/-- Accepting a record leaves the bytes after the ones it consumed. -/
theorem State.ahead_accept (s : State) (r : DecodedInstruction) : (s.accept r).ahead = s.ahead.drop r.length := by
  simp [State.ahead, ← List.map_drop, List.drop_range', Nat.sub_sub]

theorem Memory.read_cons_of_ne {p q : Nat} (h : p ≠ q) (v : Byte) (m : Memory) :
    (Memory.cons p v m).read q = m.read q := by
  unfold Memory.cons
  split
  · rfl
  · simp [Memory.read, h]

theorem Memory.read_cons_self {p : Nat} {m : Memory} (h : m.read p = Memory.unlisted) (v : Byte) :
    (Memory.cons p v m).read p = v := by
  unfold Memory.cons
  split
  · next hv => rw [h, hv]
  · simp [Memory.read]

theorem Memory.read_ofBytesFrom_of_lt (bytes : List Byte) : ∀ {p q : Nat}, q < p →
    (Memory.ofBytesFrom p bytes).read q = Memory.unlisted := by
  induction bytes with
  | nil => intros; rfl
  | cons v vs ih =>
    intro p q h
    rw [Memory.ofBytesFrom, Memory.read_cons_of_ne (by omega), ih (by omega)]

theorem Memory.map_read_ofBytesFrom (bytes : List Byte) : ∀ p : Nat,
    (List.range' p bytes.length).map (Memory.ofBytesFrom p bytes).read = bytes := by
  induction bytes with
  | nil => intro p; rfl
  | cons v vs ih =>
    intro p
    have hv : (Memory.ofBytesFrom p (v :: vs)).read p = v :=
      Memory.read_cons_self (Memory.read_ofBytesFrom_of_lt vs (Nat.lt_succ_self p)) v
    have hvs : (List.range' (p + 1) vs.length).map (Memory.ofBytesFrom p (v :: vs)).read = vs := by
      refine (List.map_congr_left fun q hq => ?_).trans (ih (p + 1))
      exact Memory.read_cons_of_ne (by have := List.mem_range'_1.1 hq; omega) v _
    simp only [List.length_cons, List.range'_succ, List.map_cons, hv, hvs]

/-- The loader puts the input's bytes ahead of the driver. -/
@[simp] theorem State.ahead_load (bytes : List Byte) : (State.load (some bytes)).ahead = bytes :=
  Memory.map_read_ofBytesFrom bytes 0

/-! ### The decode call at the driver's offset -/

theorem decodeCall_eq_ok {buf : Memory} {len pos : Nat} {r : DecodedInstruction} :
    decodeCall buf len pos = .ok r ↔ ∃ i, decode (windowBytes buf len pos) = .instr i ∧ recordOf i = r := by
  rw [decodeCall_eq_window]
  cases decode (windowBytes buf len pos) <;> simp [resultOf]

theorem decodeCall_eq_err {buf : Memory} {len pos : Nat} {e : DecodeError} :
    decodeCall buf len pos = .err e ↔
      ∃ r, decode (windowBytes buf len pos) = .reject r ∧ errorOfReject pos r = e := by
  rw [decodeCall_eq_window]
  cases decode (windowBytes buf len pos) <;> simp [resultOf]

theorem windowBytes_length_le_rest (buf : Memory) (len pos : Nat) : (windowBytes buf len pos).length ≤ len - pos := by
  simp only [windowBytes, List.length_map, List.length_range, available]
  split <;> omega

/-- A record consumes 2, 3 or 4 bytes (10_state.md R25). -/
theorem length_cases_of_ok {buf : Memory} {len pos : Nat} {r : DecodedInstruction}
    (h : decodeCall buf len pos = .ok r) : r.length = 2 ∨ r.length = 3 ∨ r.length = 4 := by
  obtain ⟨i, _, rfl⟩ := decodeCall_eq_ok.1 h
  exact recordOf_length_cases i

/-- A record consumes no byte past the end of the buffer. -/
theorem pos_add_length_le_of_ok {buf : Memory} {len pos : Nat} {r : DecodedInstruction}
    (h : decodeCall buf len pos = .ok r) : pos + r.length ≤ len := by
  obtain ⟨i, hd, rfl⟩ := decodeCall_eq_ok.1 h
  obtain ⟨_, rest, hw⟩ := encode_of_decode hd
  have hlen := windowBytes_length_le_rest buf len pos
  rw [hw, List.length_append, encode_length] at hlen
  have := instr_length_cases i
  rw [recordOf_length]
  omega

theorem pos_lt_of_ok {buf : Memory} {len pos : Nat} {r : DecodedInstruction}
    (h : decodeCall buf len pos = .ok r) : pos < len := by
  have := pos_add_length_le_of_ok h
  have := length_cases_of_ok h
  omega

/-! ### One step, by the decode call -/

section
variable {s : State}

theorem step_of_idle (hp : s.phase = .idle) : step s = .next s.start := by simp [step, fetch, hp]

theorem step_of_ok {r : DecodedInstruction} (hp : s.phase = .running)
    (h : decodeCall s.mem s.len s.pos = .ok r) : step s = .next (s.accept r) := by
  obtain ⟨i, hd, rfl⟩ := decodeCall_eq_ok.1 h
  have hd' : decode s.window = .instr i := hd
  simp [step, fetch, hp, pos_lt_of_ok h, hd', exec_eq_accept]

theorem step_of_err {e : DecodeError} (hp : s.phase = .running) (hl : s.pos < s.len)
    (h : decodeCall s.mem s.len s.pos = .err e) : step s = .next (s.takeError e) := by
  obtain ⟨r, hd, rfl⟩ := decodeCall_eq_err.1 h
  have hd' : decode s.window = .reject r := hd
  simp [step, fetch, hp, hl, hd']

theorem step_of_end (hp : s.phase = .running) (hl : s.len ≤ s.pos) : step s = .next s.complete := by
  simp [step, fetch, hp, Nat.not_lt.2 hl]

theorem step_of_completed (hp : s.phase = .completed) : step s = .next s := by simp [step, fetch, hp]

theorem step_of_failed {e : DecodeError} (hp : s.phase = .failed e) : step s = .fault (faultOfError e) := by
  simp [step, fetch, hp]

theorem step_of_sourceUnavailable (hp : s.phase = .sourceUnavailable) : step s = .fault .sourceUnavailable := by
  simp [step, fetch, hp]

/-- The cases of a step that answers a next state, as `step_cases` has them, by the decode call at the driver's offset. -/
theorem step_cases_decodeCall {t : State} (h : step s = .next t) :
    (s.phase = .idle ∧ t = s.start) ∨
    (∃ r, s.phase = .running ∧ decodeCall s.mem s.len s.pos = .ok r ∧ t = s.accept r) ∨
    (∃ e, s.phase = .running ∧ s.pos < s.len ∧ decodeCall s.mem s.len s.pos = .err e ∧ t = s.takeError e) ∨
    (s.phase = .running ∧ s.len ≤ s.pos ∧ t = s.complete) ∨
    (s.phase = .completed ∧ t = s) := by
  rcases step_cases h with h | ⟨i, hp, _, hd, ht⟩ | ⟨r, hp, hl, hd, ht⟩ | h
  · exact .inl h
  · exact .inr (.inl ⟨_, hp, decodeCall_eq_ok.2 ⟨i, hd, rfl⟩, ht⟩)
  · exact .inr (.inr (.inl ⟨_, hp, hl, decodeCall_eq_err.2 ⟨r, hd, rfl⟩, ht⟩))
  · exact .inr (.inr (.inr h))

end

/-! ### The invariant of a pass -/

@[simp] theorem consumedBy_append (ls ls' : List Line) : consumedBy (ls ++ ls') = consumedBy ls + consumedBy ls' := by
  induction ls with
  | nil => simp [consumedBy]
  | cons l ls ih => cases l <;> simp [consumedBy, ih, Nat.add_assoc]

theorem lengthOk_iff (r : DecodedInstruction) :
    (Line.instruction r).lengthOk = true ↔ r.length = 2 ∨ r.length = 3 ∨ r.length = 4 := by
  simp [Line.lengthOk, or_assoc]

theorem writtenOk_accept {s : State} {r : DecodedInstruction} (hp : s.phase = .running)
    (hw : WrittenOk s.phase s.written) (hr : r.length = 2 ∨ r.length = 3 ∨ r.length = 4) :
    WrittenOk (s.accept r).phase (s.accept r).written := by
  rw [hp] at hw
  obtain ⟨ls, hls, hok⟩ := hw
  rw [State.accept_phase, hp, State.accept_written, hls]
  exact ⟨ls ++ [.instruction r], rfl, by simp [hok, lengthOk_iff, hr]⟩

theorem inv_start {s : State} (h : s.Inv) (hp : s.phase = .idle) : s.start.Inv := by
  obtain ⟨hb, hpos, hw, hc, _⟩ := h
  have hnil : s.written = [] := by simpa [WrittenOk, hp] using hw
  refine ⟨hb, hpos, ⟨[], by simp [hnil], rfl⟩, ?_, trivial⟩
  simpa [consumedBy] using hc

theorem inv_accept {s : State} {r : DecodedInstruction} (h : s.Inv) (hp : s.phase = .running)
    (hok : decodeCall s.mem s.len s.pos = .ok r) : (s.accept r).Inv := by
  obtain ⟨hb, _, hw, hc, _⟩ := h
  refine ⟨hb, pos_add_length_le_of_ok hok, writtenOk_accept hp hw (length_cases_of_ok hok), ?_, ?_⟩
  · simp [consumedBy, hc]
  · simp [EndOk, hp]

theorem inv_takeError {s : State} {e : DecodeError} (h : s.Inv) (hp : s.phase = .running) (hl : s.pos < s.len)
    (he : decodeCall s.mem s.len s.pos = .err e) : (s.takeError e).Inv := by
  obtain ⟨hb, hpos, hw, hc, _⟩ := h
  rw [hp] at hw
  exact ⟨hb, hpos, hw, hc, hl, he⟩

theorem inv_complete {s : State} (h : s.Inv) (hp : s.phase = .running) (hl : s.len ≤ s.pos) : s.complete.Inv := by
  obtain ⟨hb, hpos, hw, hc, _⟩ := h
  rw [hp] at hw
  exact ⟨hb, hpos, hw, hc, Nat.le_antisymm hpos hl⟩

/-- Settles O31, one lemma per case of a step. -/
theorem stepKeepsInvariant : Obligations.StepKeepsInvariant := by
  intro s t hs h
  rcases step_cases_decodeCall h with ⟨hp, rfl⟩ | ⟨r, hp, hok, rfl⟩ | ⟨e, hp, hl, he, rfl⟩ | ⟨hp, hl, rfl⟩ | ⟨_, rfl⟩
  · exact inv_start hs hp
  · exact inv_accept hs hp hok
  · exact inv_takeError hs hp hl he
  · exact inv_complete hs hp hl
  · exact hs

/-! ### A stream of encodings -/

/-- The window of a driver with an encoding ahead shows it whole. -/
theorem decode_window_of_ahead {s : State} {i : Instr} {rest : List Byte} (hi : i.wf = true)
    (h : s.ahead = encode i ++ rest) : decode s.window = .instr i := by
  have hlen : (encode i).length ≤ 4 := by have := instr_length_cases i; rw [encode_length]; omega
  rw [State.window_eq_take_ahead, h, List.take_append, List.take_of_length_le hlen]
  exact decode_encode_append hi _

/-- A running pass over nothing but encodings forwards their records, turn by turn, and completes. -/
theorem run_over_encodings (is : List Instr) : ∀ s : State, (∀ i ∈ is, i.wf = true) → s.phase = .running →
    s.pos ≤ s.len → s.ahead = is.flatMap encode →
    Host.Core.run Sys2Proof.core (is.length + 1) s =
      .next { s with
        pos := s.len
        phase := .completed
        written := s.written ++ is.map fun i => .instruction (recordOf i) } := by
  induction is with
  | nil =>
    intro s _ hp hpos ha
    have hend : s.len - s.pos = 0 := by rw [← State.ahead_length, ha]; rfl
    have hpl : s.pos = s.len := by omega
    rw [run_next _ (step_of_end hp (by omega))]
    simp [Host.Core.run, State.complete, hpl]
  | cons i is ih =>
    intro s hwf hp hpos ha
    have hi : i.wf = true := hwf i (List.mem_cons_self ..)
    have hok : decodeCall s.mem s.len s.pos = .ok (recordOf i) :=
      decodeCall_eq_ok.2 ⟨i, decode_window_of_ahead hi ha, rfl⟩
    have ha' : (s.accept (recordOf i)).ahead = is.flatMap encode := by
      rw [State.ahead_accept, ha, List.flatMap_cons, recordOf_length, ← encode_length, List.drop_left]
    rw [List.length_cons, run_next _ (step_of_ok hp hok),
      ih (s.accept (recordOf i)) (fun j hj => hwf j (List.mem_cons_of_mem i hj)) hp (pos_add_length_le_of_ok hok) ha']
    simp [State.accept]

/-- Settles O39: after the header's step the pass runs over the stream, by induction on it. -/
theorem encodedStreamDecodesBack : Obligations.EncodedStreamDecodesBack := by
  intro is hwf
  have hrun := run_over_encodings is (State.load (some (is.flatMap encode))).start hwf rfl (Nat.zero_le _)
    (State.ahead_load _)
  refine ⟨is.length + 1 + 1, _, (run_next _ (step_of_idle rfl)).trans hrun, rfl, rfl, rfl, ?_⟩
  simp

/-! ### Records -/

/-- Settles O6, from the record of the decoded instruction. -/
theorem decodedRecordShape : Obligations.DecodedRecordShape := by
  intro buf len pos r h
  exact ⟨by cases r.mnemonic; rfl, length_cases_of_ok h⟩

/-! ### The driver's loop -/

/-- Settles O27: the three turns of a running pass. -/
theorem stepIsOneTurnOfDriverLoop : Obligations.StepIsOneTurnOfDriverLoop :=
  fun _ => ⟨fun hp _ _ h => step_of_ok hp h, fun hp hl _ h => step_of_err hp hl h, step_of_end⟩

/-- Settles O35: one lemma per phase outside the loop. -/
theorem stepOutsideTheLoop : Obligations.StepOutsideTheLoop :=
  fun _ => ⟨step_of_idle, fun _ _ => step_of_failed, fun _ => step_of_failed, step_of_sourceUnavailable,
    step_of_completed⟩

/-- How a machine's pass stands, after a number of decode calls. -/
def State.passEnd (s : State) (calls : Nat) : PassEnd :=
  { pos := s.pos, written := s.written, phase := s.phase, calls := calls }

section
variable {s : State} (fuel calls : Nat)

theorem passLoop_of_ok {r : DecodedInstruction} (hp : s.phase = .running)
    (h : decodeCall s.mem s.len s.pos = .ok r) :
    passLoop s.mem s.len (fuel + 1) (s.passEnd calls) =
      passLoop s.mem s.len fuel ((s.accept r).passEnd (calls + 1)) := by
  simp [passLoop, State.passEnd, pos_lt_of_ok h, h, hp]

theorem passLoop_of_err {e : DecodeError} (hl : s.pos < s.len) (h : decodeCall s.mem s.len s.pos = .err e) :
    passLoop s.mem s.len (fuel + 1) (s.passEnd calls) = (s.takeError e).passEnd (calls + 1) := by
  simp [passLoop, State.passEnd, hl, h]

theorem passLoop_of_end (hl : s.len ≤ s.pos) :
    passLoop s.mem s.len (fuel + 1) (s.passEnd calls) = s.complete.passEnd calls := by
  simp [passLoop, State.passEnd, Nat.not_lt.2 hl]

end

/-- From `s` the machine reaches `t`, an end of the pass over the same buffer, within `bound` steps. -/
def EndsWithin (bound : Nat) (s t : State) : Prop :=
  ∃ n, n ≤ bound ∧ Host.Core.run Sys2Proof.core n s = .next t ∧ t.phase.ended = true ∧ t.mem = s.mem ∧ t.len = s.len

theorem EndsWithin.of_step {s t : State} (h : step s = .next t) (he : t.phase.ended = true) (hm : t.mem = s.mem)
    (hl : t.len = s.len) {bound : Nat} (hb : 1 ≤ bound) : EndsWithin bound s t :=
  ⟨1, hb, run_next 0 h, he, hm, hl⟩

theorem EndsWithin.step {s u t : State} {bound bound' : Nat} (h : step s = .next u) (hm : u.mem = s.mem)
    (hl : u.len = s.len) (ht : EndsWithin bound u t) (hb : bound + 1 ≤ bound') : EndsWithin bound' s t := by
  obtain ⟨n, hn, hrun, he, htm, htl⟩ := ht
  exact ⟨n + 1, by omega, (run_next n h).trans hrun, he, htm.trans hm, htl.trans hl⟩

/-- A running machine ends where the loop with enough fuel ends; each successful call consumes two bytes or more. -/
theorem running_ends_at_passLoop (fuel : Nat) : ∀ (s : State) (calls : Nat), s.phase = .running →
    s.len - s.pos < fuel → ∃ t calls', EndsWithin ((s.len - s.pos) / 2 + 1) s t ∧
      passLoop s.mem s.len fuel (s.passEnd calls) = t.passEnd calls' := by
  induction fuel with
  | zero => intro s calls _ hf; omega
  | succ fuel ih =>
    intro s calls hp hf
    by_cases hl : s.pos < s.len
    · cases hd : decodeCall s.mem s.len s.pos with
      | ok r =>
        have hlen := length_cases_of_ok hd
        have hfit := pos_add_length_le_of_ok hd
        obtain ⟨t, calls', ht, hloop⟩ := ih (s.accept r) (calls + 1) hp (by simp; omega)
        refine ⟨t, calls', ht.step (step_of_ok hp hd) rfl rfl (by simp; omega), ?_⟩
        rw [passLoop_of_ok fuel calls hp hd]
        exact hloop
      | err e =>
        exact ⟨_, _, .of_step (step_of_err hp hl hd) rfl rfl rfl (by omega), passLoop_of_err fuel calls hl hd⟩
    · have hl' := Nat.le_of_not_lt hl
      exact ⟨_, _, .of_step (step_of_end hp hl') rfl rfl rfl (by omega), passLoop_of_end fuel calls hl'⟩

/-- Settles O28: the header's step, then the loop. -/
theorem machineRunIsSpecPass : Obligations.MachineRunIsSpecPass := by
  rintro s ⟨hp, hpos, hw⟩
  obtain ⟨t, calls, ht, hloop⟩ := running_ends_at_passLoop (s.len + 1) s.start 0 rfl (by simp [hpos])
  have hpass : pass s.mem s.len = t.passEnd calls := by
    rw [← hloop]
    simp [pass, State.passEnd, hpos, hw]
  obtain ⟨n, hn, hrun, he, hm, hlen⟩ := ht.step (step_of_idle hp) rfl rfl (Nat.le_refl _)
  rw [hpass]
  exact ⟨n, t, by simpa [hpos] using hn, hrun, he, hm, hlen, rfl, rfl, rfl⟩

/-- Settles O33, one case of a step at a time: only a successful call moves the offset. -/
theorem offsetAdvancesByLengthOnly : Obligations.OffsetAdvancesByLengthOnly := by
  intro s t hpos h
  have fits {p : Nat} (hp : p ≤ s.len) : Config.FitsPosition s.len → Config.FitsPosition p :=
    Nat.lt_of_le_of_lt hp
  rcases step_cases_decodeCall h with ⟨hp, rfl⟩ | ⟨r, hp, hok, rfl⟩ | ⟨e, hp, hl, he, rfl⟩ | ⟨hp, hl, rfl⟩ | ⟨hp, rfl⟩
  · exact ⟨hpos, fits hpos, .inr ⟨rfl, by simp [hp]⟩⟩
  · have hfit := pos_add_length_le_of_ok hok
    exact ⟨hfit, fits hfit, .inl ⟨r, hp, hok, rfl, length_cases_of_ok hok⟩⟩
  · exact ⟨hpos, fits hpos, .inr ⟨rfl, by simp [he]⟩⟩
  · refine ⟨hpos, fits hpos, .inr ⟨rfl, ?_⟩⟩
    rintro ⟨_, r, hok⟩
    exact absurd (pos_lt_of_ok hok) (Nat.not_lt.2 hl)
  · exact ⟨hpos, fits hpos, .inr ⟨rfl, by simp [hp]⟩⟩

/-! ### The frame of an instruction -/

/-- Settles O46: every instruction's effect is that its record is accepted. -/
theorem instructionFrame : Obligations.InstructionFrame := by
  intro i s t h
  rw [exec_eq_accept] at h
  cases h
  refine ⟨rfl, rfl, rfl, fun p => rfl, ?_, recordOf i, rfl, recordOf_length i⟩
  rw [State.accept_pos, recordOf_length]

/-! ### Position independence -/

/-- The ports do not show where the window stands: every offset they carry counts from `pos`. -/
theorem portsOf_resultOf (pos pos' : Nat) (d : Decoded) :
    portsOf pos (resultOf pos d) = portsOf pos' (resultOf pos' d) := by
  cases d with
  | instr i => rfl
  | reject r => cases r <;> simp [portsOf, resultOf, errorOfReject, statusOk, statusErrKind, statusErrOff, statusErrByte]

/-- Settles O16: both calls decode one window. -/
theorem decodeIsPositionIndependent : Obligations.DecodeIsPositionIndependent := by
  intro buf buf' len len' pos pos' hw
  constructor
  · rw [decodeCall_eq_window, decodeCall_eq_window, hw, portsOf_resultOf]
  · intro r hr
    rwa [decodeCall_eq_ok, hw, ← decodeCall_eq_ok] at hr

/-! ### What the decoder looks at -/

/-- Cutting bytes that decode: what remains still decodes alike, or runs out where it was cut. -/
theorem decode_take {bs : List Byte} {i : Instr} (h : decode bs = .instr i) (k : Nat) :
    decode (bs.take k) = if k < i.length then .reject (.bufferExhausted k) else .instr i := by
  obtain ⟨hi, rest, rfl⟩ := encode_of_decode h
  split
  · next hk =>
    rw [List.take_append_of_le_length (by rw [encode_length]; omega)]
    have hwhole := decode_encode_append hi []
    rw [List.append_nil, ← List.take_append_drop k (encode i)] at hwhole
    rcases decode_cases ((encode i).take k) with ⟨j, rest', hj, hb, _⟩ | ⟨b, rest', hr, hb, _⟩ | ⟨_, hd⟩
    · have hlen := congrArg List.length hb
      rw [hb, List.append_assoc, decode_encode_append hj] at hwhole
      cases hwhole
      simp [encode_length] at hlen
      omega
    · rw [hb, List.cons_append, decode, hr] at hwhole
      cases hwhole
    · rw [hd, List.length_take_of_le (by rw [encode_length]; omega)]
  · next hk =>
    rw [List.take_append, List.take_of_length_le (by rw [encode_length]; omega)]
    exact decode_encode_append hi _

/-- How many bytes what was read depends on (20_memory.md R47). -/
def consultedBytes : Decoded → Nat
  | .instr i => i.length
  | .reject (.unrecognizedOpcode _) => 1
  | .reject (.bufferExhausted n) => n

/-- The decoder depends on the consulted bytes alone, and on how many there are. -/
theorem decode_congr {bs bs' : List Byte} (hl : bs'.length = bs.length)
    (ht : bs'.take (consultedBytes (decode bs)) = bs.take (consultedBytes (decode bs))) : decode bs' = decode bs := by
  rcases decode_cases bs with ⟨i, rest, hi, hb, hd⟩ | ⟨b, rest, hr, hb, hd⟩ | ⟨_, hd⟩ <;> rw [hd] at ht ⊢
  · simp only [consultedBytes, ← encode_length, hb, List.take_left] at ht
    rw [← List.take_append_drop (encode i).length bs', ht]
    exact decode_encode_append hi _
  · subst hb
    cases bs' with
    | nil => cases hl
    | cons b' rest' =>
      have hb : b' = b := by simpa [consultedBytes] using ht
      simp [hb, decode, hr]
  · simp only [consultedBytes, List.take_length] at ht
    rw [← hd, ← ht, List.take_of_length_le (by omega)]

theorem exhausted_offset_le {bs : List Byte} {n : Nat} (h : decode bs = .reject (.bufferExhausted n)) : n ≤ 3 := by
  rcases decode_cases bs with ⟨i, rest, _, _, hd⟩ | ⟨b, rest, _, _, hd⟩ | ⟨hl, hd⟩
  · cases hd.symm.trans h
  · cases hd.symm.trans h
  · cases hd.symm.trans h; exact hl

/-! ### The combinational core -/

theorem matchMrm_eq (b : Byte) : matchMrm b = decide (recognize b = some .mrm) := by revert b; decide
theorem matchImm_eq (b : Byte) : matchImm b = decide (recognize b = some .imm) := by revert b; decide

/-- The number of bytes the window's fields ask for (30_encoding.md R79; one where byte1 is unrecognized). -/
def Window.needed (v : Window) : Nat :=
  match recognize v.win0 with
  | none => 1
  | some .mrm => 2 + v.dispLen
  | some .imm => 2 + (immW v.win0).toNat

section
variable {v : Window}

theorem needed_of_none (hr : recognize v.win0 = none) : v.needed = 1 := by simp [Window.needed, hr]
theorem needed_of_mrm (hr : recognize v.win0 = some .mrm) : v.needed = 2 + v.dispLen := by simp [Window.needed, hr]
theorem needed_of_imm (hr : recognize v.win0 = some .imm) : v.needed = 2 + (immW v.win0).toNat := by
  simp [Window.needed, hr]

theorem dispLen_cases (v : Window) : v.dispLen = 0 ∨ v.dispLen = 1 ∨ v.dispLen = 2 := dlen_cases _ _

theorem needed_le (v : Window) : v.needed ≤ 4 := by
  have := dispLen_cases v
  have := Bool.toNat_le (immW v.win0)
  unfold Window.needed
  split <;> omega

/-- Byte `i` is needed exactly where it is one of the bytes asked for. -/
theorem need_eq {i : Nat} (hi : i < 4) : v.need i = decide (i < v.needed) := by
  cases hr : recognize v.win0 with
  | none => rw [needed_of_none hr]; interval_cases i <;> simp [Window.need, matchMrm_eq, matchImm_eq, hr]
  | some family =>
    cases family with
    | mrm =>
      rw [needed_of_mrm hr]
      interval_cases i <;> rcases dispLen_cases v with h | h | h <;> simp [Window.need, matchMrm_eq, matchImm_eq, hr, h]
    | imm =>
      rw [needed_of_imm hr]
      interval_cases i <;> cases h : immW v.win0 <;> simp [Window.need, matchMrm_eq, matchImm_eq, hr, h]

/-- The first missing byte is the first that does not exist, where more are needed than exist. -/
theorem firstMissing_eq (v : Window) :
    v.firstMissing = if v.avail.toNat < v.needed then some v.avail.toNat else none := by
  have hn := needed_le v
  have hm {i : Nat} (hi : i < 4) : v.missing i = decide (v.avail.toNat ≤ i ∧ i < v.needed) := by
    rw [Window.missing, need_eq hi]
    by_cases h : i < v.avail.toNat <;> simp [h]; omega
  change (List.range 4).find? v.missing = _
  split
  · next h =>
    rw [List.find?_range_eq_some, hm (by omega), List.mem_range]
    refine ⟨by simpa using h, by omega, fun j hj => ?_⟩
    rw [hm (by omega)]
    simp; omega
  · next h =>
    rw [List.find?_range_eq_none]
    intro i hi
    rw [hm hi]
    simp; omega

theorem portCore_of_short (h : v.avail.toNat < v.needed) :
    portCore v = portsOf 0 (.err (.bufferExhausted v.avail.toNat)) := by
  simp only [portCore, firstMissing_eq, if_pos h]
  rfl

theorem portCore_of_unrecognized (h : v.needed ≤ v.avail.toNat) (hr : recognize v.win0 = none) :
    portCore v = portsOf 0 (.err (.unrecognizedOpcode v.win0 0)) := by
  simp only [portCore, firstMissing_eq, if_neg (Nat.not_lt.2 h), matchMrm_eq, matchImm_eq, hr]
  rfl

theorem portCore_of_recognized (h : v.needed ≤ v.avail.toNat) (hr : recognize v.win0 ≠ none) :
    portCore v = portsOf 0 (.ok v.record) := by
  have hf : (matchMrm v.win0 || matchImm v.win0) = true := by
    cases hr' : recognize v.win0 with
    | none => exact absurd hr' hr
    | some family => cases family <;> simp [matchMrm_eq, matchImm_eq, hr']
  simp only [portCore, firstMissing_eq, if_neg (Nat.not_lt.2 h), hf]
  rfl

/-! ### The combinational core against the decoder -/

/-- All four bytes of the window, whether they exist or not. -/
def Window.allBytes (v : Window) : List Byte := [v.win0, v.win1, v.win2, v.win3]

/-- The bytes of the window that exist. -/
def Window.bytes (v : Window) : List Byte := v.allBytes.take v.avail.toNat

/-- With a recognized byte1 four bytes hold an encoding, of as many bytes as the window asks for. -/
theorem decode_allBytes (hr : recognize v.win0 ≠ none) :
    ∃ i, decode v.allBytes = .instr i ∧ recordOf i = v.record ∧ (recordOf i).length = v.needed := by
  cases hr' : recognize v.win0 with
  | none => exact absurd hr' hr
  | some family =>
    cases family with
    | mrm =>
      exact ⟨mrmInstr (mrmD v.win0) (mrmW v.win0)
          ⟨modField v.win1, regField v.win1, rmField v.win1, displacement v.dispLen v.win2 v.win3⟩,
        by simp [Window.allBytes, decode, hr', decodeMrmBytes, decodeDisp, Window.dispLen],
        by simp [Window.record, matchMrm_eq, hr'], by simp [mrmRecord, needed_of_mrm hr', Window.dispLen]⟩
    | imm =>
      cases hw : immW v.win0 with
      | false =>
        exact ⟨.movR8Imm8 (immReg v.win0) v.win1, by simp [Window.allBytes, decode, hr', decodeImmBytes, hw],
          by simp [Window.record, matchMrm_eq, hr', hw, recordOf], by simp [needed_of_imm hr', hw, recordOf, immRecord]⟩
      | true =>
        exact ⟨.movR16Imm16 (immReg v.win0) (le16 v.win1 v.win2),
          by simp [Window.allBytes, decode, hr', decodeImmBytes, hw],
          by simp [Window.record, matchMrm_eq, hr', hw, recordOf], by simp [needed_of_imm hr', hw, recordOf, immRecord]⟩

/-- The core drives the ports of what the decoder reads in the bytes that exist. -/
theorem portCore_eq_decode (v : Window) : portCore v = portsOf 0 (resultOf 0 (decode v.bytes)) := by
  by_cases hr : recognize v.win0 = none
  · have hn := needed_of_none hr
    cases ha : v.avail.toNat with
    | zero =>
      rw [portCore_of_short (by omega), ha]
      simp [Window.bytes, ha, decode, resultOf, errorOfReject]
    | succ k =>
      rw [portCore_of_unrecognized (by omega) hr]
      simp [Window.bytes, Window.allBytes, ha, decode, hr, resultOf, errorOfReject]
  · obtain ⟨i, hd, hrec, hlen⟩ := decode_allBytes hr
    rw [recordOf_length] at hlen
    rw [Window.bytes, decode_take hd, hlen]
    split
    · next h => rw [portCore_of_short h, resultOf, errorOfReject, Nat.zero_add]
    · next h => rw [portCore_of_recognized (by omega) hr, resultOf, hrec]

end

/-- A driven window's existing bytes are the fetch window. -/
theorem bytes_driveWindow (buf : Memory) (len pos : Nat) (anyValue : Nat → Byte) :
    (driveWindow buf len pos anyValue).bytes = windowBytes buf len pos := by
  have ha : available len pos ≤ 4 := by unfold available maxLength; split <;> omega
  have hall : (driveWindow buf len pos anyValue).allBytes =
      (List.range 4).map fun i => if i < available len pos then buf.read (pos + i) else anyValue i := rfl
  have havail : (driveWindow buf len pos anyValue).avail.toNat = available len pos := by
    simp only [driveWindow, BitVec.toNat_ofNat]; omega
  rw [Window.bytes, hall, havail, ← List.map_take, List.take_range, Nat.min_eq_left ha, windowBytes]
  exact List.map_congr_left fun i hi => if_pos (List.mem_range.1 hi)

/-- Settles O18: the core and the decode call both decode the existing bytes. -/
theorem portCoreImplementsDecodeCall : Obligations.PortCoreImplementsDecodeCall := by
  intro buf len pos anyValue
  rw [portCore_eq_decode, bytes_driveWindow, decodeCall_eq_window, portsOf_resultOf]

/-! ### What the ports say -/

@[simp] theorem portsOf_ok (pos : Nat) (r : DecodedInstruction) : portsOf pos (.ok r) =
    { ok := 1#1, mnem := 0#1, length := BitVec.ofNat 3 r.length, dst := encodeOperand r.dst, src := encodeOperand r.src
      errKind := 0b00#2, errOff := 0#2, errByte := 0#8 } := rfl

@[simp] theorem portsOf_unrecognizedOpcode (pos offset : Nat) (byte : Byte) :
    portsOf pos (.err (.unrecognizedOpcode byte offset)) =
      errPorts 0b01#2 (BitVec.ofNat 2 (offset - pos)) byte := rfl

@[simp] theorem portsOf_bufferExhausted (pos offset : Nat) :
    portsOf pos (.err (.bufferExhausted offset)) = errPorts 0b10#2 (BitVec.ofNat 2 (offset - pos)) 0#8 := rfl

/-- The number of window bytes the outputs say were needed. -/
def Ports.consulted (p : Ports) : Nat :=
  if p.ok = 1#1 then p.length.toNat else if p.errKind = 0b01#2 then 1 else p.errOff.toNat

theorem consulted_portCore (v : Window) : (portCore v).consulted = consultedBytes (decode v.bytes) := by
  rw [portCore_eq_decode]
  cases hd : decode v.bytes with
  | instr i =>
    have := instr_length_cases i
    simp [resultOf, Ports.consulted, consultedBytes, recordOf_length]; omega
  | reject r =>
    cases r with
    | unrecognizedOpcode b => simp [resultOf, errorOfReject, Ports.consulted, consultedBytes, errPorts]
    | bufferExhausted n =>
      have := exhausted_offset_le hd
      simp [resultOf, errorOfReject, Ports.consulted, consultedBytes, errPorts]; omega

/-- Windows that agree on the first `k` bytes have the same first `k` existing bytes. -/
theorem take_bytes_congr {v v' : Window} (ha : v'.avail = v.avail) {k : Nat} (h : ∀ i, i < k → v'.win i = v.win i) :
    v'.bytes.take k = v.bytes.take k := by
  have hall (u : Window) : u.allBytes = (List.range 4).map u.win := rfl
  rw [Window.bytes, Window.bytes, ha, List.take_take, List.take_take, hall, hall, ← List.map_take, ← List.map_take,
    List.take_range]
  refine List.map_congr_left fun i hi => h i ?_
  have := List.mem_range.1 hi
  omega

/-- Settles O19: windows that agree on the consulted bytes decode alike. -/
theorem portsIgnoreUnneededBytes : Obligations.PortsIgnoreUnneededBytes := by
  intro v v' ha hagree
  change ∀ i, i < (portCore v).consulted → v'.win i = v.win i at hagree
  rw [consulted_portCore] at hagree
  have hl : v'.bytes.length = v.bytes.length := by simp [Window.bytes, Window.allBytes, ha]
  rw [portCore_eq_decode v', portCore_eq_decode v, decode_congr hl (take_bytes_congr ha hagree)]

theorem win0_of_bytes {v : Window} {b : Byte} {rest : List Byte} (h : v.bytes = b :: rest) : b = v.win0 := by
  cases ha : v.avail.toNat <;> simp_all [Window.bytes, Window.allBytes]

/-- What the outputs hold by the `ok` they show, for every window. -/
theorem portCore_by_ok (v : Window) :
    let p := portCore v
    p.mnem = 0#1 ∧ p.errKind ≠ 0b11#2 ∧
    (p.ok = 1#1 → (p.length = 2#3 ∨ p.length = 3#3 ∨ p.length = 4#3) ∧
      p.errKind = 0b00#2 ∧ p.errOff = 0#2 ∧ p.errByte = 0#8) ∧
    (p.ok = 0#1 → p.length = 0#3 ∧ p.dst = 0#22 ∧ p.src = 0#22 ∧
      ((p.errKind = 0b01#2 ∧ p.errOff = 0#2 ∧ p.errByte = v.win0) ∨ (p.errKind = 0b10#2 ∧ p.errByte = 0#8))) := by
  rw [portCore_eq_decode]
  rcases decode_cases v.bytes with ⟨i, _, _, _, hd⟩ | ⟨b, rest, _, hb, hd⟩ | ⟨_, hd⟩ <;>
    simp only [hd, resultOf, errorOfReject]
  · rcases recordOf_length_cases i with h | h | h <;> simp [h]
  · simp [errPorts, win0_of_bytes hb]
  · simp [errPorts]

theorem exhausted_offset_sub_lt {buf : Memory} {len pos offset : Nat}
    (h : decodeCall buf len pos = .err (.bufferExhausted offset)) : offset - pos < 4 := by
  obtain ⟨r, hd, he⟩ := decodeCall_eq_err.1 h
  cases r <;> cases he
  have := exhausted_offset_le hd
  omega

theorem unrecognized_offset_eq {buf : Memory} {len pos offset : Nat} {b : Byte}
    (h : decodeCall buf len pos = .err (.unrecognizedOpcode b offset)) : offset = pos := by
  obtain ⟨r, hd, he⟩ := decodeCall_eq_err.1 h
  cases r <;> cases he
  rfl

/-- Settles O20: the ports of any window, those of each result, and those of a driven window by the call's result. -/
theorem portOutputsByVariant : Obligations.PortOutputsByVariant := by
  refine ⟨portCore_by_ok, portsOf_ok, fun _ _ _ => rfl, fun _ _ => rfl, fun buf len pos anyValue => ?_⟩
  rw [portCoreImplementsDecodeCall buf len pos anyValue]
  refine ⟨fun r hr => ?_, fun byte offset he => ?_, fun offset he => ?_⟩
  · have := length_cases_of_ok hr
    simp [hr]; omega
  · simp [he, errPorts, unrecognized_offset_eq he]
  · have := exhausted_offset_sub_lt he
    simp [he, errPorts]; omega

/-! ### Operand codes and tables -/

section
variable (kind : BitVec 2) (w : Bool) (idx : BitVec 3) (val : Word)

/-- Each bit of an operand code is a bit of one field. -/
theorem getLsbD_packOperand (j : Nat) : (packOperand kind w idx val).getLsbD j =
    if j < 16 then val.getLsbD j
    else if j < 19 then idx.getLsbD (j - 16)
    else if j < 20 then (BitVec.ofBool w).getLsbD (j - 19)
    else kind.getLsbD (j - 20) := by
  unfold packOperand
  rw [BitVec.getLsbD_append, BitVec.getLsbD_append, BitVec.getLsbD_append]
  by_cases h16 : j < 16
  · simp [h16]
  · by_cases h19 : j < 19
    · simp [h16, h19, show j - 16 < 3 by omega]
    · rw [show j - 16 - 3 = j - 19 by omega, show j - 19 - 1 = j - 20 by omega]
      by_cases h20 : j < 20
      · simp [h16, h19, h20, show ¬ j - 16 < 3 by omega, show j - 19 < 1 by omega]
      · simp [h16, h19, h20, show ¬ j - 16 < 3 by omega, show ¬ j - 19 < 1 by omega]

theorem kind_packOperand : (packOperand kind w idx val).extractLsb' 20 2 = kind := by
  ext i hi
  rw [BitVec.getElem_extractLsb', getLsbD_packOperand, if_neg (by omega), if_neg (by omega), if_neg (by omega),
    Nat.add_sub_cancel_left, BitVec.getLsbD_eq_getElem hi]

theorem w_packOperand : (packOperand kind w idx val).getLsbD 19 = w := by
  rw [getLsbD_packOperand]; simp

theorem idx_packOperand : (packOperand kind w idx val).extractLsb' 16 3 = idx := by
  ext i hi
  rw [BitVec.getElem_extractLsb', getLsbD_packOperand, if_neg (by omega), if_pos (by omega), Nat.add_sub_cancel_left,
    BitVec.getLsbD_eq_getElem hi]

theorem val_packOperand : (packOperand kind w idx val).extractLsb' 0 16 = val := by
  ext i hi
  rw [BitVec.getElem_extractLsb', getLsbD_packOperand, if_pos (by omega), Nat.zero_add, BitVec.getLsbD_eq_getElem hi]

end

theorem readOperand_encodeOperand (o : Operand) : readOperand (encodeOperand o) = o := by
  cases o <;> simp only [encodeOperand, readOperand, kind_packOperand, w_packOperand, idx_packOperand, val_packOperand] <;>
    rfl

/-- Settles O21: each field of a code read back, and with the fields the operand. -/
theorem operandCodeLayout : Obligations.OperandCodeLayout :=
  ⟨fun kind w idx val => ⟨kind_packOperand kind w idx val, w_packOperand kind w idx val, idx_packOperand kind w idx val,
      val_packOperand kind w idx val⟩,
    fun _ _ => rfl, fun _ _ _ => rfl, fun _ _ => rfl, fun _ _ => rfl, readOperand_encodeOperand⟩

/-- Settles O22: the tables are closed terms. -/
theorem registerAndAddressTables : Obligations.RegisterAndAddressTables := by
  unfold Obligations.RegisterAndAddressTables
  decide

end Sys2Proof.Machine
end

section
/-! SUPPORT. The statements of 20_memory.md: which bytes a decode call reads, that no step writes one, and that the buffer's
canonical form holds its bytes and nothing else. -/

namespace Sys2Proof.Machine

/-! ### No write port -/

theorem advance_of_step {s t : State} (h : step s = .next t) : s.advance = t := by simp [State.advance, h]

/-- Settles O32: a step's next state is `advance`, which leaves the buffer. -/
theorem stepNeverWritesBuffer : Obligations.StepNeverWritesBuffer := by
  intro s t h
  obtain ⟨hm, hl⟩ := advance_buffer s
  rw [advance_of_step h] at hm hl
  exact ⟨hm, hl, fun p => by rw [hm, hl]⟩

/-! ### The loaded bytes -/

/-- The guarded reads from the driver's offset on give the bytes ahead, and no byte after them. -/
theorem State.getElem?_ahead (s : State) (i : Nat) : s.ahead[i]? = byteAt s.mem s.len (s.pos + i) := by
  by_cases h : s.pos + i < s.len
  · simp [State.ahead, byteAt_of_lt h, show i < s.len - s.pos by omega]
  · rw [byteAt_of_ge (Nat.le_of_not_lt h), List.getElem?_eq_none (by rw [State.ahead_length]; omega)]

/-- Settles O52: a loaded machine's driver stands at 0 with the input ahead of it. -/
theorem loadedBufferHoldsBytes : Obligations.LoadedBufferHoldsBytes := by
  intro bytes p
  have h := State.getElem?_ahead (State.load (some bytes)) p
  rw [State.ahead_load, State.load_pos, Nat.zero_add] at h
  exact h.symm

/-! ### The canonical form -/

theorem Memory.wfFrom_cons_iff {lo a : Nat} {v : Byte} {m : Memory} :
    Memory.wfFrom lo ((a, v) :: m) = true ↔ lo ≤ a ∧ v ≠ Memory.unlisted ∧ m.wfFrom (a + 1) = true := by
  simp [Memory.wfFrom, and_assoc]

theorem Memory.read_head (a : Nat) (v : Byte) (m : Memory) : Memory.read ((a, v) :: m) a = v := by simp [Memory.read]

theorem Memory.read_tail {a p : Nat} (h : a ≠ p) (v : Byte) (m : Memory) :
    Memory.read ((a, v) :: m) p = m.read p := by simp [Memory.read, h]

/-- A canonical memory lists nothing before its first offset. -/
theorem Memory.read_of_wfFrom_of_lt {lo q : Nat} (m : Memory) (hm : m.wfFrom lo = true) (h : q < lo) :
    m.read q = Memory.unlisted := by
  induction m generalizing lo with
  | nil => rfl
  | cons c m ih =>
    obtain ⟨a, v⟩ := c
    obtain ⟨hlo, _, htail⟩ := Memory.wfFrom_cons_iff.1 hm
    rw [Memory.read_tail (by omega), ih htail (by omega)]

/-- A memory inside a length lists nothing from that length on. -/
theorem Memory.read_of_within_of_ge {len q : Nat} (m : Memory) (hm : m.within len = true) (h : len ≤ q) :
    m.read q = Memory.unlisted := by
  induction m with
  | nil => rfl
  | cons c m ih =>
    obtain ⟨a, v⟩ := c
    obtain ⟨ha, htail⟩ : a < len ∧ Memory.within m len = true := by simpa [Memory.within] using hm
    rw [Memory.read_tail (by omega), ih htail]

/-- The head of a canonical memory is listed in every memory that reads alike, so none of them begins after it. -/
theorem Memory.le_head_of_read_eq {lo lo' a : Nat} {v : Byte} {m m' : Memory}
    (hm : Memory.wfFrom lo ((a, v) :: m) = true) (hm' : m'.wfFrom lo' = true)
    (h : ∀ p, m'.read p = Memory.read ((a, v) :: m) p) : lo' ≤ a := by
  by_contra hlt
  have hv : v = Memory.unlisted := by
    rw [← Memory.read_head a v m, ← h, Memory.read_of_wfFrom_of_lt m' hm' (by omega)]
  obtain ⟨_, hne, _⟩ := Memory.wfFrom_cons_iff.1 hm
  exact hne hv

/-- Canonical memories that read alike have the same cells. -/
theorem Memory.eq_of_read_eq (m m' : Memory) {lo lo' : Nat} (hm : m.wfFrom lo = true) (hm' : m'.wfFrom lo' = true)
    (h : ∀ p, m.read p = m'.read p) : m = m' := by
  induction m generalizing m' lo lo' with
  | nil =>
    cases m' with
    | nil => rfl
    | cons c' m' =>
      obtain ⟨_, hv', _⟩ := Memory.wfFrom_cons_iff.1 hm'
      exact absurd ((Memory.read_head ..).symm.trans (h c'.1).symm) hv'
  | cons c m ih =>
    obtain ⟨a, v⟩ := c
    obtain ⟨_, hv, htail⟩ := Memory.wfFrom_cons_iff.1 hm
    cases m' with
    | nil => exact absurd ((Memory.read_head ..).symm.trans (h a)) hv
    | cons c' m' =>
      obtain ⟨a', v'⟩ := c'
      obtain ⟨_, hv', htail'⟩ := Memory.wfFrom_cons_iff.1 hm'
      have ha : a = a' := Nat.le_antisymm
        (Memory.le_head_of_read_eq hm' (Memory.wfFrom_cons_iff.2 ⟨Nat.le_refl a, hv, htail⟩) h)
        (Memory.le_head_of_read_eq hm (Memory.wfFrom_cons_iff.2 ⟨Nat.le_refl a', hv', htail'⟩) fun p => (h p).symm)
      subst ha
      have hvv : v = v' := by rw [← Memory.read_head a v m, h, Memory.read_head]
      have htl : m = m' := by
        refine ih m' htail htail' fun p => ?_
        by_cases hp : a = p
        · rw [Memory.read_of_wfFrom_of_lt m htail (by omega), Memory.read_of_wfFrom_of_lt m' htail' (by omega)]
        · rw [← Memory.read_tail hp v m, h, Memory.read_tail hp]
      rw [hvv, htl]

/-- Settles O51: the guarded reads fix every read, and the reads fix the cells. -/
theorem equalBuffersAreEqualData : Obligations.EqualBuffersAreEqualData := by
  intro m m' len hm hm' hin hin' h
  refine Memory.eq_of_read_eq m m' hm hm' fun p => ?_
  by_cases hp : p < len
  · simpa [byteAt_of_lt hp] using h p
  · rw [Memory.read_of_within_of_ge m hin (by omega), Memory.read_of_within_of_ge m' hin' (by omega)]

/-! ### What a decode call reads -/

/-- How many bytes a call at `pos` with this result has read (20_memory.md R47). -/
def bytesRead (pos : Nat) : DecodeResult → Nat
  | .ok r => r.length
  | .err (.unrecognizedOpcode _ _) => 1
  | .err (.bufferExhausted offset) => offset - pos

/-- What the result counts as read is what the decoder of the window depends on. -/
theorem bytesRead_decodeCall (buf : Memory) (len pos : Nat) :
    bytesRead pos (decodeCall buf len pos) = consultedBytes (decode (windowBytes buf len pos)) := by
  rw [decodeCall_eq_window]
  cases decode (windowBytes buf len pos) with
  | instr i => exact recordOf_length i
  | reject r =>
    cases r with
    | unrecognizedOpcode b => rfl
    | bufferExhausted n => exact Nat.add_sub_cancel_left pos n

@[simp] theorem bytesRead_mrmRecord (pos : Nat) (d w : Bool) (f : MrmFields) :
    bytesRead pos (.ok (mrmRecord d w f)) = 2 + dlen f.mod f.rm := rfl

@[simp] theorem bytesRead_immRecord (pos : Nat) (w : Bool) (reg : BitVec 3) (src : Operand) :
    bytesRead pos (.ok (immRecord w reg src)) = 2 + w.toNat := rfl

@[simp] theorem bytesRead_unrecognizedOpcode (pos : Nat) (b : Byte) (offset : Nat) :
    bytesRead pos (.err (.unrecognizedOpcode b offset)) = 1 := rfl

@[simp] theorem bytesRead_bufferExhausted (pos offset : Nat) :
    bytesRead pos (.err (.bufferExhausted offset)) = offset - pos := rfl

/-- A call reads the offsets from `pos` on, rising, as many as its result says. -/
theorem reads_eq_range' (buf : Memory) (len pos : Nat) :
    (decodeTraced buf len pos).reads = List.range' pos (bytesRead pos (decodeCall buf len pos)) := by
  have h := decodeTraced_cases buf len pos
  dsimp only at h
  rw [decodeCall]
  rcases h with ⟨-, hc⟩ | ⟨-, -, hc⟩ | ⟨-, -, hc⟩ | ⟨-, -, hn, hc⟩ | ⟨-, -, -, hc⟩ | ⟨-, -, hn, hc⟩ | ⟨-, -, -, hc⟩ |
    ⟨-, -, hn, hc⟩ | ⟨-, -, -, hc⟩ | ⟨-, -, -, hc⟩ | ⟨-, -, -, hc⟩ <;> simp [*, List.range'_succ]

/-- The decoder never depends on more bytes than there are. -/
theorem consultedBytes_le_length (bs : List Byte) : consultedBytes (decode bs) ≤ bs.length := by
  rcases decode_cases bs with ⟨i, rest, _, rfl, hd⟩ | ⟨b, rest, _, rfl, hd⟩ | ⟨_, hd⟩ <;> rw [hd]
  · simp [consultedBytes, encode_length]
  · simp [consultedBytes]
  · exact Nat.le_refl _

/-- The decoder depends on the consulted bytes alone, and on the number of bytes only where they run out. -/
theorem decode_eq_of_take_consulted {bs bs' : List Byte}
    (ht : bs'.take (consultedBytes (decode bs)) = bs.take (consultedBytes (decode bs)))
    (hl : ∀ n, decode bs = .reject (.bufferExhausted n) → bs'.length ≤ n) : decode bs' = decode bs := by
  rcases decode_cases bs with ⟨i, rest, hi, hb, hd⟩ | ⟨b, rest, hr, hb, hd⟩ | ⟨_, hd⟩
  · rw [hd, consultedBytes, ← encode_length, hb, List.take_left] at ht
    rw [hd, ← List.take_append_drop (encode i).length bs', ht]
    exact decode_encode_append hi _
  · rw [hd, consultedBytes, hb, List.take_succ_cons, List.take_zero] at ht
    rw [hd, ← List.take_append_drop 1 bs', ht]
    simp [decode, hr]
  · rw [hd, consultedBytes, List.take_length, List.take_of_length_le (hl _ hd)] at ht
    rw [ht]

theorem windowBytes_length (buf : Memory) (len pos : Nat) : (windowBytes buf len pos).length = available len pos := by
  simp [windowBytes]

theorem le_available_iff {len pos k : Nat} : k ≤ available len pos ↔ k ≤ 4 ∧ (k = 0 ∨ pos + k ≤ len) := by
  unfold available maxLength
  split <;> omega

theorem take_windowBytes {len pos k : Nat} (buf : Memory) (h : k ≤ available len pos) :
    (windowBytes buf len pos).take k = (List.range' pos k).map buf.read := by
  simp [windowBytes, ← List.map_take, List.take_range, Nat.min_eq_left h, List.range'_eq_map_range]

/-- The result depends on the bytes read, and on the length only where it runs out. -/
theorem decodeCall_congr {buf buf' : Memory} {len len' pos : Nat}
    (hr : ∀ p ∈ (decodeTraced buf len pos).reads, p < len' ∧ buf'.read p = buf.read p)
    (he : ∀ offset, decodeCall buf len pos = .err (.bufferExhausted offset) → len' ≤ offset) :
    decodeCall buf' len' pos = decodeCall buf len pos := by
  rw [reads_eq_range', bytesRead_decodeCall] at hr
  rw [decodeCall_eq_window buf', decodeCall_eq_window buf]
  congr 1
  apply decode_eq_of_take_consulted
  · have hk : consultedBytes (decode (windowBytes buf len pos)) ≤ available len pos :=
      windowBytes_length buf len pos ▸ consultedBytes_le_length _
    generalize consultedBytes (decode (windowBytes buf len pos)) = k at hr hk
    have hk' : k ≤ available len' pos := by
      refine le_available_iff.2 ⟨(le_available_iff.1 hk).1, ?_⟩
      cases k with
      | zero => exact .inl rfl
      | succ k => exact .inr (hr (pos + k) (List.mem_range'_1.2 (by omega))).1
    rw [take_windowBytes buf' hk', take_windowBytes buf hk]
    exact List.map_congr_left fun p hp => (hr p hp).2
  · intro n hd
    have hlen := he (pos + n) (decodeCall_eq_err.2 ⟨_, hd, rfl⟩)
    have := windowBytes_length_le_rest buf' len' pos
    omega

/-- Settles O15: the offsets read follow from the result, so a call with the same result is the same call. -/
theorem callReadsExactlyItsBytes : Obligations.CallReadsExactlyItsBytes := by
  intro buf len pos
  refine ⟨reads_eq_range' buf len pos, fun buf' len' hr he => ?_⟩
  have hres : decodeCall buf' len' pos = decodeCall buf len pos := decodeCall_congr hr he
  have hreads : (decodeTraced buf' len' pos).reads = (decodeTraced buf len pos).reads := by
    rw [reads_eq_range', reads_eq_range', hres]
  exact congrArg₂ Call.mk hres hreads

end Sys2Proof.Machine
end

section
/-! SUPPORT. The statements of 30_encoding.md: the round trip of encoder and decoder, the recognizer, the record and the
length a decode call returns, what the step of a running pass executes, and the text. -/

namespace Sys2Proof.Machine

/-! ### The round trip -/

/-- Settles O47: the decoder against the encoder, one format at a time. -/
theorem decodeInvertsEncode : Obligations.DecodeInvertsEncode :=
  fun _ rest hi => decode_encode_append hi rest

/-- Settles O48: bytes that decode are an encoding and bytes after it. -/
theorem decodedBytesAreTheEncoding : Obligations.DecodedBytesAreTheEncoding := by
  intro bs i h
  obtain ⟨hi, rest, rfl⟩ := encode_of_decode h
  refine ⟨hi, ?_, ?_⟩
  · simp [encode_length]
  · rw [← encode_length, List.take_left]

/-! ### The recognizer -/

/-- The recognizer as two masked comparisons (R65). -/
theorem recognize_eq_masked (b : Byte) : recognize b =
    if b &&& 0xF0#8 = 0xB0#8 then some .imm else if b &&& 0xFC#8 = 0x88#8 then some .mrm else none := by
  revert b; decide

theorem recognize_eq_mrm_iff (b : Byte) : recognize b = some .mrm ↔ b ∈ [0x88#8, 0x89#8, 0x8A#8, 0x8B#8] := by
  revert b; decide

theorem recognize_eq_imm_iff (b : Byte) : recognize b = some .imm ↔ 0xB0 ≤ b.toNat ∧ b.toNat ≤ 0xBF := by
  revert b; decide

/-- No byte equals both constants after masking. -/
theorem masks_disjoint (b : Byte) : ¬ (b &&& 0xF0#8 = 0xB0#8 ∧ b &&& 0xFC#8 = 0x88#8) := by revert b; decide

/-- No candidate of the table contradicts the recognizer. -/
theorem matchCandidate_eq (b : Byte) :
    ∀ c ∈ recognizerTable, matchCandidate b c = none ∨ matchCandidate b c = recognize b := by
  revert b; decide

/-- The order in which the table's candidates are tried changes no result. -/
theorem recognizeIn_of_perm {table : List Candidate} (h : table.Perm recognizerTable) (b : Byte) :
    recognizeIn table b = recognize b := by
  cases ht : recognizeIn table b with
  | none =>
    refine (List.findSome?_eq_none_iff.2 fun c hc => ?_).symm
    exact List.findSome?_eq_none_iff.1 ht c (h.mem_iff.2 hc)
  | some family =>
    obtain ⟨c, hc, hm⟩ := List.exists_of_findSome?_eq_some ht
    rcases matchCandidate_eq b c (h.mem_iff.1 hc) with hnone | heq
    · cases hnone.symm.trans hm
    · exact hm.symm.trans heq

theorem countP_recognized : ((List.range 256).countP fun n => (recognize (BitVec.ofNat 8 n)).isSome) = 20 := by
  decide +kernel

/-- The bytes that are not recognized are the rest. -/
theorem countP_unrecognized : ((List.range 256).countP fun n => (recognize (BitVec.ofNat 8 n)).isNone) = 236 := by
  have h := List.length_eq_countP_add_countP (l := List.range 256) fun n => (recognize (BitVec.ofNat 8 n)).isSome
  simp only [countP_recognized, List.length_range, Bool.not_eq_true, Option.isSome_eq_false_iff, Bool.decide_eq_true] at h
  omega

theorem immByte1_toNat (w : Bool) (reg : BitVec 3) : (immByte1 w reg).toNat = 0xB0 + 8 * w.toNat + reg.toNat := by
  revert w reg; decide

/-- The first byte of an encoding tells the row (R66). -/
theorem row_of_encode {i : Instr} {b : Byte} {rest : List Byte} (h : encode i = b :: rest) :
    (b = 0x88#8 ∧ ∃ f, i = .movRm8R8 f) ∨ (b = 0x89#8 ∧ ∃ f, i = .movRm16R16 f) ∨
    (b = 0x8A#8 ∧ ∃ f, i = .movR8Rm8 f) ∨ (b = 0x8B#8 ∧ ∃ f, i = .movR16Rm16 f) ∨
    (0xB0 ≤ b.toNat ∧ b.toNat ≤ 0xB7 ∧ ∃ reg imm, i = .movR8Imm8 reg imm) ∨
    (0xB8 ≤ b.toNat ∧ b.toNat ≤ 0xBF ∧ ∃ reg imm, i = .movR16Imm16 reg imm) := by
  have hb : (encode i).head? = some b := by rw [h]; rfl
  cases i with
  | movRm8R8 f => cases hb; exact .inl ⟨rfl, f, rfl⟩
  | movRm16R16 f => cases hb; exact .inr (.inl ⟨rfl, f, rfl⟩)
  | movR8Rm8 f => cases hb; exact .inr (.inr (.inl ⟨rfl, f, rfl⟩))
  | movR16Rm16 f => cases hb; exact .inr (.inr (.inr (.inl ⟨rfl, f, rfl⟩)))
  | movR8Imm8 reg imm =>
    cases hb
    have hb := immByte1_toNat false reg
    have := reg.isLt
    rw [Bool.toNat_false] at hb
    exact .inr (.inr (.inr (.inr (.inl ⟨by omega, by omega, reg, imm, rfl⟩))))
  | movR16Imm16 reg imm =>
    cases hb
    have hb := immByte1_toNat true reg
    have := reg.isLt
    rw [Bool.toNat_true] at hb
    exact .inr (.inr (.inr (.inr (.inr ⟨by omega, by omega, reg, imm, rfl⟩))))

/-- Settles O2: the bytes by enumeration, the orders by what no candidate contradicts, the rows by the encoder. -/
theorem recognizedSetIsTwentyBytes : Obligations.RecognizedSetIsTwentyBytes := by
  refine ⟨masks_disjoint, fun _ h b => recognizeIn_of_perm h b, recognize_eq_mrm_iff, recognize_eq_imm_iff,
    countP_recognized, countP_unrecognized, fun b rest i h => ?_⟩
  obtain ⟨_, rest', hb⟩ := encode_of_decode h
  cases he : encode i with
  | nil => have := instr_length_cases i; rw [← encode_length, he] at this; simp at this
  | cons b' tail =>
    obtain rfl : b = b' := by rw [he] at hb; exact (List.cons.inj hb).1
    exact row_of_encode he

theorem decodeCall_of_unrecognized {buf : Memory} {len pos : Nat} (hl : pos < len)
    (hr : recognize (buf.read pos) = none) :
    decodeCall buf len pos = .err (.unrecognizedOpcode (buf.read pos) pos) := by
  simp [decodeCall, decodeTraced, byteAt_of_lt hl, hr, Call.raise]

/-- Settles O1: each form of the comparison over all bytes, and the error where neither holds. -/
theorem recognizerComparesAfterMasking : Obligations.RecognizerComparesAfterMasking := by
  refine ⟨recognize_eq_masked, fun b => ⟨rfl, by simp [matchImm_eq]⟩, fun b => ⟨rfl, by simp [matchMrm_eq]⟩, fun b => ?_,
    fun _ _ _ => decodeCall_of_unrecognized⟩
  rw [matchImm_eq, matchMrm_eq]
  rcases recognize b with _ | _ | _ <;> simp

/-- Settles O3: the recognizer has none of the seven bytes. -/
theorem prefixBytesAreUnrecognized : Obligations.PrefixBytesAreUnrecognized := by
  intro buf len pos hl hb
  have hnone : ∀ b ∈ [0x26#8, 0x2E#8, 0x36#8, 0x3E#8, 0xF0#8, 0xF2#8, 0xF3#8], recognize b = none := by decide
  exact decodeCall_of_unrecognized hl (hnone _ hb)

/-! ### The record of a recognized byte1 -/

/-- The four bytes from an offset on as a window, inside the buffer or not. -/
def windowAt (buf : Memory) (pos : Nat) : Window :=
  { win0 := buf.read pos, win1 := buf.read (pos + 1), win2 := buf.read (pos + 2), win3 := buf.read (pos + 3), avail := 4#3 }

theorem windowBytes_eq_take_allBytes (buf : Memory) (len pos : Nat) :
    windowBytes buf len pos = (windowAt buf pos).allBytes.take (available len pos) := by
  have ha : available len pos ≤ 4 := (le_available_iff.1 (Nat.le_refl _)).1
  have hall : (windowAt buf pos).allBytes = (List.range 4).map fun i => buf.read (pos + i) := rfl
  rw [windowBytes, hall, ← List.map_take, List.take_range, Nat.min_eq_left ha]

section
variable {buf : Memory} {len pos : Nat}

/-- A call that recognizes byte1 returns the record of the four bytes at its offset, or runs out of the bytes it needs. -/
theorem decodeCall_of_recognized (hr : recognize (buf.read pos) ≠ none) :
    decodeCall buf len pos =
      if available len pos < (windowAt buf pos).needed then .err (.bufferExhausted (pos + available len pos))
      else .ok (windowAt buf pos).record := by
  obtain ⟨i, hd, hrec, hlen⟩ := decode_allBytes (v := windowAt buf pos) hr
  rw [decodeCall_eq_window, windowBytes_eq_take_allBytes, decode_take hd, ← recordOf_length, hlen, ← hrec]
  split <;> rfl

theorem recognize_of_ok {r : DecodedInstruction} (h : decodeCall buf len pos = .ok r) :
    recognize (buf.read pos) ≠ none := by
  intro hr
  rw [decodeCall_of_unrecognized (pos_lt_of_ok h) hr] at h
  cases h

theorem record_of_ok {r : DecodedInstruction} (h : decodeCall buf len pos = .ok r) : r = (windowAt buf pos).record := by
  rw [decodeCall_of_recognized (recognize_of_ok h)] at h
  split at h
  · cases h
  · exact (DecodeResult.ok.inj h).symm

/-- A record's length is the number of bytes the window asks for. -/
theorem length_of_ok {r : DecodedInstruction} (h : decodeCall buf len pos = .ok r) :
    r.length = (windowAt buf pos).needed := by
  obtain ⟨i, _, hrec, hlen⟩ := decode_allBytes (v := windowAt buf pos) (recognize_of_ok h)
  rw [record_of_ok h, ← hrec, hlen]

end

section
variable {v : Window}

theorem record_of_mrm (hr : recognize v.win0 = some .mrm) : v.record =
    mrmRecord (mrmD v.win0) (mrmW v.win0)
      ⟨modField v.win1, regField v.win1, rmField v.win1, displacement v.dispLen v.win2 v.win3⟩ := by
  simp [Window.record, matchMrm_eq, hr]

theorem record_of_imm8 (hr : recognize v.win0 = some .imm) (hw : immW v.win0 = false) :
    v.record = immRecord false (immReg v.win0) (immOperand8 v.win1) := by
  simp [Window.record, matchMrm_eq, hr, hw]

theorem record_of_imm16 (hr : recognize v.win0 = some .imm) (hw : immW v.win0 = true) :
    v.record = immRecord true (immReg v.win0) (immOperand16 (le16 v.win1 v.win2)) := by
  simp [Window.record, matchMrm_eq, hr, hw]

end

theorem dlen_mod11 (rm : BitVec 3) : dlen 0b11#2 rm = 0 := rfl
theorem dlen_mod00_of_ne {rm : BitVec 3} (h : rm ≠ 0b110#3) : dlen 0b00#2 rm = 0 := by simp [dlen, h]
theorem dlen_direct : dlen 0b00#2 0b110#3 = 2 := rfl
theorem dlen_mod01 (rm : BitVec 3) : dlen 0b01#2 rm = 1 := rfl
theorem dlen_mod10 (rm : BitVec 3) : dlen 0b10#2 rm = 2 := rfl

/-- Settles O7: the bytes the window asks for, by format and addressing mode. -/
theorem consumedLengthByForm : Obligations.ConsumedLengthByForm := by
  intro buf len pos r h
  have hlen := length_of_ok h
  refine ⟨fun hr => ?_, fun hr => hlen.trans (needed_of_imm hr)⟩
  have hn : r.length = 2 + dlen (modField (buf.read (pos + 1))) (rmField (buf.read (pos + 1))) :=
    hlen.trans (needed_of_mrm hr)
  refine ⟨hn, fun hm => ?_, fun hm hrm => ?_, fun hm hrm => ?_, fun hm => ?_, fun hm => ?_⟩
  · rw [hn, hm, dlen_mod11]
  · rw [hn, hm, hrm, dlen_direct]
  · rw [hn, hm, dlen_mod00_of_ne hrm]
  · rw [hn, hm, dlen_mod01]
  · rw [hn, hm, dlen_mod10]

/-- Settles O11: the bytes asked for depend on byte1 and byte2, and for IMM on byte1. -/
theorem lengthFixedByFirstTwoBytes : Obligations.LengthFixedByFirstTwoBytes := by
  intro buf buf' len len' pos pos' r r' h h' h1
  have h0 : (windowAt buf' pos').win0 = (windowAt buf pos).win0 := h1
  rw [length_of_ok h, length_of_ok h']
  refine ⟨fun hr => ?_, fun h2 => ?_⟩
  · have hr' : recognize (windowAt buf pos).win0 = some .imm := hr
    rw [needed_of_imm hr', needed_of_imm (h0 ▸ hr'), h0]
  · have h2' : (windowAt buf' pos').win1 = (windowAt buf pos).win1 := h2
    simp only [Window.needed, Window.dispLen, h0, h2']

/-- Settles O8: byte order by `le16_toNat`, the byte by zero extension. -/
theorem immediateIsUnsignedLittleEndian : Obligations.ImmediateIsUnsignedLittleEndian := by
  intro buf len pos r hr h
  obtain rfl := record_of_ok h
  cases hw : immW (buf.read pos) with
  | true =>
    rw [record_of_imm16 (v := windowAt buf pos) hr hw, if_pos rfl]
    exact ⟨rfl, _, rfl, le16_toNat _ _, Nat.le_of_lt_succ (BitVec.isLt _)⟩
  | false =>
    rw [record_of_imm8 (v := windowAt buf pos) hr hw, if_neg Bool.false_ne_true]
    have hv : unsigned16 (zext16 (buf.read (pos + 1))) = (buf.read (pos + 1)).toNat := zext16_toNat _
    exact ⟨rfl, _, rfl, hv, hv ▸ Nat.le_of_lt_succ (BitVec.isLt _)⟩

/-- Two bytes of the stream as one word, the second on the left. -/
theorem le16_eq_append (lo hi : Byte) : le16 lo hi = hi ++ lo := by
  apply BitVec.eq_of_toNat_eq
  rw [le16_toNat, BitVec.toNat_append, Nat.shiftLeft_eq, Nat.mul_comm, ← Nat.two_pow_add_eq_or_of_lt lo.isLt]

theorem rmOperand_direct (w : Bool) (disp : Word) : rmOperand w 0b00#2 0b110#3 disp = .direct w disp := rfl

/-- Settles O10: four bytes are enough for any form, and this one's rm side is `Direct`. -/
theorem directAddressCase : Obligations.DirectAddressCase := by
  intro buf len pos hl hr hmod hrm
  have hrec : recognize (buf.read pos) ≠ none := by rw [hr]; simp
  have hav : ¬ available len pos < (windowAt buf pos).needed := by
    have := needed_le (windowAt buf pos)
    have : 4 ≤ available len pos := le_available_iff.2 (by omega)
    omega
  refine ⟨_, (decodeCall_of_recognized hrec).trans (if_neg hav), ?_⟩
  rw [record_of_mrm (v := windowAt buf pos) hr]
  simp only [windowAt, Window.dispLen, mrmRecord, hmod, hrm, rmOperand_direct, regOperand, dlen_direct, displacement,
    le16_eq_append]
  cases mrmD (buf.read pos) <;> simp

/-! ### The displacement's value -/

theorem signed16_sext16 (b : Byte) :
    signed16 (sext16 b) = if b.toNat ≤ 0x7F then (b.toNat : Int) else (b.toNat : Int) - 256 := by
  have := b.isLt
  rw [signed16, sext16_toInt, BitVec.toInt_eq_toNat_cond]
  split <;> split <;> omega

theorem signed16_range (v : Word) : -32768 ≤ signed16 v ∧ signed16 v ≤ 32767 :=
  ⟨BitVec.le_toInt v, Int.le_of_lt_add_one BitVec.toInt_lt⟩

/-- Settles O9: one byte sign-extended, or the two bytes, by the number of displacement bytes. -/
theorem displacementSignAndRange : Obligations.DisplacementSignAndRange := by
  refine ⟨fun rm lo hi => ?_, fun rm lo hi => ?_, fun w lo hi => ?_⟩
  · have hv : displacement (dlen 0b01#2 rm) lo hi = sext16 lo := rfl
    have := lo.isLt
    dsimp only
    rw [hv, signed16_sext16]
    refine ⟨rfl, ?_⟩
    split <;> omega
  · have hv : displacement (dlen 0b10#2 rm) lo hi = le16 lo hi := rfl
    dsimp only
    rw [hv]
    exact ⟨le16_eq_append lo hi, BitVec.signExtend_eq _, signed16_range _⟩
  · have hv : displacement (dlen 0b00#2 0b110#3) lo hi = le16 lo hi := rfl
    dsimp only
    rw [hv]
    exact ⟨le16_eq_append lo hi, rmOperand_direct w _, le16_toNat lo hi, Nat.le_of_lt_succ (BitVec.isLt _)⟩

/-! ### The bounds check -/

/-- A call runs out exactly at the end of the buffer, three bytes on at most, and not before its offset. -/
theorem exhausted_offset_bounds {buf : Memory} {len pos offset : Nat}
    (h : decodeCall buf len pos = .err (.bufferExhausted offset)) :
    pos ≤ offset ∧ offset ≤ pos + 3 ∧ len ≤ offset := by
  obtain ⟨reject, hd, he⟩ := decodeCall_eq_err.1 h
  cases reject <;> cases he
  rcases decode_cases (windowBytes buf len pos) with ⟨i, rest, _, _, hd'⟩ | ⟨b, rest, _, _, hd'⟩ | ⟨hlen, hd'⟩ <;>
    cases hd'.symm.trans hd
  rw [windowBytes_length] at hlen ⊢
  have hend : ¬ available len pos + 1 ≤ available len pos := by omega
  rw [le_available_iff] at hend
  omega

/-- Settles O14: a call reads what the decoder consults of the existing bytes. -/
theorem boundsCheckGuardsEveryRead : Obligations.BoundsCheckGuardsEveryRead := by
  intro buf len pos
  constructor
  · intro p hp
    have hc := consultedBytes_le_length (windowBytes buf len pos)
    have hw := windowBytes_length_le_rest buf len pos
    rw [reads_eq_range', bytesRead_decodeCall, List.mem_range'_1] at hp
    omega
  · intro offset h
    obtain ⟨hlo, hhi, hend⟩ := exhausted_offset_bounds h
    exact ⟨hlo, hhi, hend, by rw [reads_eq_range', h, bytesRead_bufferExhausted]⟩

/-! ### What a running step executes -/

/-- Settles O25: the step accepts the record of the decoded instruction, as executing it does. -/
theorem stepRunsDecodedInstruction : Obligations.StepRunsDecodedInstruction := by
  intro s i hp _ hd
  rw [exec_eq_accept]
  exact step_of_ok hp (decodeCall_eq_ok.2 ⟨i, hd, rfl⟩)

theorem step_eq_exec_of_ahead {s : State} {i : Instr} {rest : List Byte} (hp : s.phase = .running) (hi : i.wf = true)
    (h : s.ahead = encode i ++ rest) : step s = exec i s := by
  refine stepRunsDecodedInstruction s i hp ?_ (decode_window_of_ahead hi h)
  have hlen := congrArg List.length h
  rw [State.ahead_length, List.length_append, encode_length] at hlen
  have := instr_length_cases i
  omega

/-- Settles O26: the guarded reads put the encoding ahead of the driver. -/
theorem stepRunsEncodedInstruction : Obligations.StepRunsEncodedInstruction := by
  intro s i hp hi h
  have hahead : encode i <+: s.ahead :=
    List.prefix_iff_getElem?.2 fun k hk => by rw [State.getElem?_ahead, h k hk, List.getElem?_eq_getElem hk]
  obtain ⟨rest, hrest⟩ := hahead
  exact step_eq_exec_of_ahead hp hi hrest.symm

/-! ### Placing bytes -/

/-- Reading a canonical memory after a write: the byte written, and every other byte as before. -/
theorem Memory.read_write (m : Memory) {lo : Nat} (hm : m.wfFrom lo = true) (p q : Nat) (v : Byte) :
    (m.write p v).read q = if q = p then v else m.read q := by
  induction m generalizing lo with
  | nil =>
    split
    · next h => subst h; exact Memory.read_cons_self rfl v
    · next h => exact Memory.read_cons_of_ne (Ne.symm h) v []
  | cons c m ih =>
    obtain ⟨a, b⟩ := c
    obtain ⟨_, hb, htail⟩ := Memory.wfFrom_cons_iff.1 hm
    rw [Memory.write]
    split
    · next hlt =>
      split
      · next h =>
        subst h
        exact Memory.read_cons_self
          (Memory.read_of_wfFrom_of_lt _ (Memory.wfFrom_cons_iff.2 ⟨Nat.le_refl a, hb, htail⟩) hlt) v
      · next h => exact Memory.read_cons_of_ne (Ne.symm h) v _
    · split
      · next hpa =>
        subst hpa
        split
        · next h => subst h; exact Memory.read_cons_self (Memory.read_of_wfFrom_of_lt m htail (Nat.lt_succ_self _)) v
        · next h => rw [Memory.read_cons_of_ne (Ne.symm h), Memory.read_tail (Ne.symm h)]
      · next hpa =>
        by_cases ha : a = q
        · subst ha; rw [Memory.read_head, Memory.read_head, if_neg (Ne.symm hpa)]
        · rw [Memory.read_tail ha, Memory.read_tail ha, ih htail]

theorem Memory.read_writeBytes_of_lt (bytes : List Byte) : ∀ {m : Memory} {p q : Nat}, m.wf = true → q < p →
    (m.writeBytes p bytes).read q = m.read q := by
  induction bytes with
  | nil => intros; rfl
  | cons v vs ih =>
    intro m p q hm hq
    rw [Memory.writeBytes, ih (Memory.wf_write hm p v) (by omega), Memory.read_write m hm, if_neg (by omega)]

/-- Bytes written at an offset are read from it on. -/
theorem Memory.map_read_writeBytes (bytes : List Byte) : ∀ {m : Memory} (p : Nat), m.wf = true →
    (List.range' p bytes.length).map (m.writeBytes p bytes).read = bytes := by
  induction bytes with
  | nil => intros; rfl
  | cons v vs ih =>
    intro m p hm
    have hw := Memory.wf_write hm p v
    have hv : (m.writeBytes p (v :: vs)).read p = v := by
      rw [Memory.writeBytes, Memory.read_writeBytes_of_lt vs hw (Nat.lt_succ_self p), Memory.read_write m hm, if_pos rfl]
    rw [List.length_cons, List.range'_succ, List.map_cons, hv, Memory.writeBytes, ih (p + 1) hw]

/-- The first bytes ahead of the driver, where there are as many. -/
theorem State.take_ahead {s : State} {k : Nat} (h : s.pos + k ≤ s.len) :
    s.ahead.take k = (List.range' s.pos k).map s.mem.read := by
  rw [State.ahead, ← List.map_take, List.take_range'_of_length_ge (by omega)]

/-- Placed bytes stand ahead of the driver. -/
theorem State.take_ahead_placeAtPos {s : State} (hm : s.mem.wf = true) (bytes : List Byte) :
    (s.placeAtPos bytes).ahead.take bytes.length = bytes := by
  rw [State.take_ahead (Nat.le_max_right _ _)]
  exact Memory.map_read_writeBytes bytes s.pos hm

theorem tableWordBytes_length (nbits w : Nat) : (tableWordBytes nbits w).length = 4 := rfl

theorem window_withFetchWord {s : State} (hm : s.mem.wf = true) (nbits w : Nat) :
    (s.withFetchWord nbits w).window = tableWordBytes nbits w := by
  rw [State.window_eq_take_ahead]
  exact State.take_ahead_placeAtPos hm (tableWordBytes nbits w)

theorem decodeTableWord_eq_some {nbits w : Nat} {i : Instr} (h : decodeTableWord nbits w = some i) :
    decode (tableWordBytes nbits w) = .instr i := by
  unfold decodeTableWord at h
  split at h
  · next hd => cases h; exact hd
  · cases h

/-- Settles O53: the window after the placing is the word's bytes. -/
theorem placedTableWordRuns : Obligations.PlacedTableWordRuns := by
  intro s nbits w i hm h
  have hlen : (s.withFetchWord nbits w).pos + 4 ≤ (s.withFetchWord nbits w).len := Nat.le_max_right _ _
  refine stepRunsDecodedInstruction _ i rfl (by omega) ?_
  rw [window_withFetchWord hm]
  exact decodeTableWord_eq_some h

/-! ### Text -/

theorem lineText_instruction (r : DecodedInstruction) : lineText (.instruction r) =
    ['m', 'o', 'v', ' '] ++ operandText r.dst ++ [',', ' '] ++ operandText r.src := by
  obtain ⟨⟨⟩, dst, src, length⟩ := r
  rfl

/-- What is written are the header and then the records of decode calls, each where the one before it ended; the driver
stands where the last one ended. -/
def State.WroteStream (s : State) : Prop :=
  s.phase ≠ .idle ∧ ∃ rs : List DecodedInstruction, s.written = .bits16 :: rs.map .instruction ∧
    consumedBy (rs.map .instruction) = s.pos ∧
    ∀ k r, rs[k]? = some r → decodeCall s.mem s.len (consumedBy ((rs.take k).map .instruction)) = .ok r

theorem wroteStream_accept {s : State} {r : DecodedInstruction} (h : s.WroteStream)
    (hok : decodeCall s.mem s.len s.pos = .ok r) : (s.accept r).WroteStream := by
  obtain ⟨hp, rs, hw, hpos, hcalls⟩ := h
  refine ⟨hp, rs ++ [r], by simp [hw], by simp [hpos, consumedBy], fun k r' hk => ?_⟩
  rw [State.accept_mem, State.accept_len]
  rcases Nat.lt_trichotomy k rs.length with hlt | rfl | hgt
  · rw [List.getElem?_append_left hlt] at hk
    rw [List.take_append_of_le_length (Nat.le_of_lt hlt)]
    exact hcalls k r' hk
  · obtain rfl : r = r' := by simpa using hk
    rw [List.take_left, hpos]
    exact hok
  · rw [List.getElem?_eq_none (by simp; omega)] at hk
    cases hk

/-- Every step after the header keeps the stream. -/
theorem wroteStream_step {s t : State} (hs : s.WroteStream) (h : step s = .next t) : t.WroteStream := by
  rcases step_cases_decodeCall h with ⟨hp, _⟩ | ⟨r, _, hok, rfl⟩ | ⟨e, _, _, _, rfl⟩ | ⟨_, _, rfl⟩ | ⟨_, rfl⟩
  · exact absurd hp hs.1
  · exact wroteStream_accept hs hok
  · exact ⟨Phase.noConfusion, hs.2⟩
  · exact ⟨Phase.noConfusion, hs.2⟩
  · exact hs

/-- Settles O24: the header's step begins the stream over the loaded buffer, and every step keeps both. -/
theorem programTextFormat : Obligations.ProgramTextFormat := by
  intro bytes n t h
  rw [run_next n (step_of_idle rfl)] at h
  have hstart : (State.load (some bytes)).start.WroteStream := ⟨Phase.noConfusion, [], rfl, rfl, by simp⟩
  have hkeeps := run_keeps
    (P := fun s => s.WroteStream ∧ s.mem = Memory.ofBytes bytes ∧ s.len = bytes.length) ?_ n _ t ⟨hstart, rfl, rfl⟩ h
  · obtain ⟨⟨_, rs, hw, _, hcalls⟩, hm, hl⟩ := hkeeps
    rw [hm, hl] at hcalls
    refine ⟨rs, hw, hcalls, ?_⟩
    rw [State.text, hw, List.map_cons, List.map_map]
    exact congrArg _ (List.map_congr_left fun r _ => lineText_instruction r)
  · rintro s u ⟨hs, hm, hl⟩ hu
    obtain ⟨hum, hul, _⟩ := stepNeverWritesBuffer s u hu
    exact ⟨wroteStream_step hs hu, hum.trans hm, hul.trans hl⟩

theorem dispText_zero (sp : NegDispText) : dispText sp 0#16 = [] := by simp [dispText]

theorem dispText_of_pos (sp : NegDispText) {disp : Word} (h : 0 < signed16 disp) :
    dispText sp disp = [' ', '+', ' '] ++ decimal disp.toNat := by
  have hne : disp ≠ 0#16 := by rintro rfl; exact absurd h (by decide)
  have hv : signed16 disp = disp.toNat := BitVec.toInt_eq_toNat_of_lt (BitVec.toInt_pos_iff.1 (Int.le_of_lt h))
  unfold dispText
  rw [if_neg hne, if_pos h, hv, Int.toNat_natCast, plusText]

/-- A negative displacement is its magnitude after the spelling's sign. -/
theorem dispText_of_neg {disp : Word} (h : signed16 disp < 0) :
    dispText .plusNegative disp = [' ', '+', ' ', '-'] ++ decimal (65536 - disp.toNat) ∧
    dispText .minus disp = [' ', '-', ' '] ++ decimal (65536 - disp.toNat) := by
  have hne : disp ≠ 0#16 := by rintro rfl; exact absurd h (by decide)
  have hv : (signed16 disp).natAbs = 65536 - disp.toNat := by
    have hmsb := BitVec.toInt_neg_iff.1 h
    rw [signed16, BitVec.toInt_eq_toNat_cond, if_neg (by omega)]
    omega
  simp [dispText, hne, Int.not_lt.2 (Int.le_of_lt h), hv, plusText]

theorem ofDigitChars_decimal (n : Nat) : Nat.ofDigitChars 10 (decimal n) 0 = n := Nat.ofDigitChars_ten_toDigits

/-- Settles O23: the displacement's text by its sign, and the one spelling by its two values. -/
theorem operandRendering : Obligations.OperandRendering := by
  refine ⟨fun _ _ _ => rfl, fun sp w ea => ?_, fun sp w ea disp h => ?_, fun w ea disp h => ?_, fun _ _ _ => rfl,
    fun _ _ _ => rfl, ofDigitChars_decimal, ?_⟩
  · simp [operandTextWith, dispText_zero]
  · simp [operandTextWith, dispText_of_pos sp h]
  · obtain ⟨hplus, hminus⟩ := dispText_of_neg h
    simp [operandTextWith, hplus, hminus]
  · unfold operandText
    cases Config.negDispText with
    | plusNegative => exact .inl fun _ => rfl
    | minus => exact .inr fun _ => rfl

end Sys2Proof.Machine
end

section
/-! SUPPORT. The statements of 40_mov_regmem.md: the MRM handler's whole call, the record of a register/memory move by
its fields, and what executing one does. -/

namespace Sys2Proof.Machine

/-! ### The MRM handler -/

/-- A call is its result and the offsets the result counts as read. -/
theorem decodeTraced_of_result {buf : Memory} {len pos : Nat} {r : DecodeResult} (h : decodeCall buf len pos = r) :
    decodeTraced buf len pos = ⟨r, List.range' pos (bytesRead pos r)⟩ := by
  subst h
  exact congrArg (Call.mk _) (reads_eq_range' buf len pos)

/-- A recognized byte1 with fewer bytes than its form needs: all of them are read, then the first missing one is named. -/
theorem decodeTraced_of_exhausted {buf : Memory} {len pos k : Nat} (hr : recognize (buf.read pos) ≠ none)
    (hk : available len pos = k) (hlt : k < (windowAt buf pos).needed) :
    decodeTraced buf len pos = ⟨.err (.bufferExhausted (pos + k)), List.range' pos k⟩ := by
  subst hk
  have hres := (decodeCall_of_recognized hr).trans (if_pos hlt)
  rw [decodeTraced_of_result hres, bytesRead_bufferExhausted, Nat.add_sub_cancel_left]

/-- A recognized byte1 with all bytes its form needs: exactly these are read, for the record they stand for. -/
theorem decodeTraced_of_available {buf : Memory} {len pos : Nat} (hr : recognize (buf.read pos) ≠ none)
    (hle : (windowAt buf pos).needed ≤ available len pos) :
    decodeTraced buf len pos = ⟨.ok (windowAt buf pos).record, List.range' pos (windowAt buf pos).needed⟩ := by
  have hres := (decodeCall_of_recognized hr).trans (if_neg (Nat.not_lt.2 hle))
  rw [decodeTraced_of_result hres, bytesRead, length_of_ok hres]

/-- The number of displacement bytes, the two cases of mod 00 side by side (R72). -/
theorem dlen_eq_ite (mod : BitVec 2) (rm : BitVec 3) : dlen mod rm =
    if mod = 0b11#2 then 0
    else if mod = 0b00#2 ∧ rm = 0b110#3 then 2
    else if mod = 0b00#2 then 0
    else if mod = 0b01#2 then 1
    else 2 := by
  revert mod rm; decide

/-- The displacement by the number of its bytes, two of them as one word (R73). -/
theorem displacement_eq_ite (n : Nat) (lo hi : Byte) :
    displacement n lo hi = if n = 0 then 0#16 else if n = 1 then lo.signExtend 16 else hi ++ lo := by
  rw [displacement, le16_eq_append, sext16]

/-- Settles O4: how many of the needed bytes exist decides between the errors and the record. -/
theorem mrmHandlerResult : Obligations.MrmHandlerResult := by
  intro buf len pos hl hr b1 b2 lo hi w mod reg rm
  have hrec : recognize (buf.read pos) ≠ none := by simp [hr]
  have hn : (windowAt buf pos).needed = 2 + dlen mod rm := needed_of_mrm hr
  have hle : dlen mod rm ≤ 2 := dlen_le mod rm
  have hav : available len pos = min 4 (len - pos) := if_pos hl
  dsimp only
  rw [← dlen_eq_ite, ← displacement_eq_ite]
  by_cases h1 : len ≤ pos + 1
  · rw [if_pos h1]
    exact decodeTraced_of_exhausted hrec (k := 1) (by omega) (by omega)
  rw [if_neg h1]
  by_cases h2 : 1 ≤ dlen mod rm ∧ len ≤ pos + 2
  · rw [if_pos h2]
    exact decodeTraced_of_exhausted hrec (k := 2) (by omega) (by omega)
  rw [if_neg h2]
  by_cases h3 : dlen mod rm = 2 ∧ len ≤ pos + 3
  · rw [if_pos h3]
    exact decodeTraced_of_exhausted hrec (k := 3) (by omega) (by omega)
  rw [if_neg h3, decodeTraced_of_available hrec (by omega), hn, record_of_mrm (v := windowAt buf pos) hr]
  rfl

/-! ### The record by its fields -/

/-- The rm side is a register in mode 11 only. -/
theorem rmOperand_ne_reg {mod : BitVec 2} (h : mod ≠ 0b11#2) (w w' : Bool) (rm i : BitVec 3) (disp : Word) :
    rmOperand w mod rm disp ≠ .reg w' i := by
  rw [rmOperand, if_neg h]
  split <;> simp

/-- Settles O17: `d` alone says which side of the record is the rm operand. -/
theorem registerMemoryCornerCases : Obligations.RegisterMemoryCornerCases := by
  refine ⟨fun w a b => rfl, fun d w a => ?_, fun w f hmod => ⟨rfl, rfl, rfl, fun w' i => ?_⟩⟩
  · cases d <;> exact ⟨rfl, rfl⟩
  · exact rmOperand_ne_reg hmod w w' f.rm i f.disp

/-! ### Executing a register/memory move -/

/-- Settles O40: the record of `d = 0`, `w = 0` is accepted. -/
theorem movRm8R8Result : Obligations.MovRm8R8Result := fun f => exec_eq_accept (.movRm8R8 f)

/-- Settles O41: the record of `d = 0`, `w = 1` is accepted. -/
theorem movRm16R16Result : Obligations.MovRm16R16Result := fun f => exec_eq_accept (.movRm16R16 f)

/-- Settles O42: the record of `d = 1`, `w = 0` is accepted. -/
theorem movR8Rm8Result : Obligations.MovR8Rm8Result := fun f => exec_eq_accept (.movR8Rm8 f)

/-- Settles O43: the record of `d = 1`, `w = 1` is accepted. -/
theorem movR16Rm16Result : Obligations.MovR16Rm16Result := fun f => exec_eq_accept (.movR16Rm16 f)

/-! ### The worked words -/

/-- Decoding an encoding with nothing after it. -/
theorem decode_of_encode_eq {bs : List Byte} {i : Instr} (hi : i.wf = true) (hb : encode i = bs) :
    decode bs = .instr i := by
  rw [← hb, ← List.append_nil (encode i), decode_encode_append hi]

/-- Settles O49: each word is the encoding of a well-formed instruction. -/
theorem workedWordsDecode : Obligations.WorkedWordsDecode := by
  refine ⟨?_, ?_, ?_, ?_, ?_, ?_⟩ <;> exact decode_of_encode_eq rfl rfl

end Sys2Proof.Machine
end

section
/-! SUPPORT. The statements of 41_mov_imm.md: the IMM handler's whole call, and what executing an immediate move does. -/

namespace Sys2Proof.Machine

/-! ### The IMM handler -/

/-- Settles O5: `w` says how many bytes are needed, and how many of them exist decides between the errors and the record. -/
theorem immHandlerResult : Obligations.ImmHandlerResult := by
  intro buf len pos hl hr b1 lo hi reg
  have hrec : recognize (buf.read pos) ≠ none := by simp [hr]
  have hn : (windowAt buf pos).needed = 2 + (b1.getLsbD 3).toNat := needed_of_imm hr
  have hav : available len pos = min 4 (len - pos) := if_pos hl
  by_cases h1 : len ≤ pos + 1
  · rw [if_pos h1]
    exact decodeTraced_of_exhausted hrec (k := 1) (by omega) (by omega)
  rw [if_neg h1]
  cases hw : b1.getLsbD 3 with
  | true =>
    rw [hw, Bool.toNat_true] at hn
    by_cases h2 : len ≤ pos + 2
    · rw [if_pos ⟨rfl, h2⟩]
      exact decodeTraced_of_exhausted hrec (k := 2) (by omega) (by omega)
    rw [if_neg fun h => h2 h.2, if_pos rfl, decodeTraced_of_available hrec (by omega), hn,
      record_of_imm16 (v := windowAt buf pos) hr hw, le16_eq_append]
    rfl
  | false =>
    rw [hw, Bool.toNat_false] at hn
    rw [if_neg fun h => Bool.false_ne_true h.1, if_neg Bool.false_ne_true,
      decodeTraced_of_available hrec (by omega), hn, record_of_imm8 (v := windowAt buf pos) hr hw]
    rfl

/-! ### Executing an immediate move -/

/-- Settles O44: the record of `w = 0` is accepted. -/
theorem movR8Imm8Result : Obligations.MovR8Imm8Result := fun reg imm => exec_eq_accept (.movR8Imm8 reg imm)

/-- Settles O45: the record of `w = 1` is accepted. -/
theorem movR16Imm16Result : Obligations.MovR16Imm16Result := fun reg imm => exec_eq_accept (.movR16Imm16 reg imm)

end Sys2Proof.Machine
end

section
/-! SUPPORT. The statements of 60_exceptions.md: which result a decode call returns and in what order, how an error ends a
pass, and that several decoders do not interfere. -/

namespace Sys2Proof.Machine

/-! ### The result of a call in the core's reading order -/

section
variable {v : Window}

/-- byte2 is needed where byte1 is recognized (30_encoding.md R80). -/
theorem one_lt_needed_iff : 1 < v.needed ↔ recognize v.win0 ≠ none := by
  rcases hr : recognize v.win0 with _ | _ | _
  · exact iff_of_false (by rw [needed_of_none hr]; omega) (fun h => h rfl)
  · exact iff_of_true (by rw [needed_of_mrm hr]; omega) (by simp)
  · exact iff_of_true (by rw [needed_of_imm hr]; omega) (by simp)

/-- byte3 is needed for a displacement, or for the second byte of a wide immediate (30_encoding.md R80). -/
theorem two_lt_needed_iff : 2 < v.needed ↔
    (recognize v.win0 = some .mrm ∧ 1 ≤ v.dispLen) ∨ (recognize v.win0 = some .imm ∧ immW v.win0 = true) := by
  have h := need_eq (v := v) (i := 2) (by omega)
  rw [← decide_eq_true_iff (p := 2 < v.needed), ← h]
  simp [Window.need, matchMrm_eq, matchImm_eq]

/-- byte4 is needed for a displacement of two bytes only (30_encoding.md R80). -/
theorem three_lt_needed_iff : 3 < v.needed ↔ recognize v.win0 = some .mrm ∧ v.dispLen = 2 := by
  have h := need_eq (v := v) (i := 3) (by omega)
  rw [← decide_eq_true_iff (p := 3 < v.needed), ← h]
  simp [Window.need, matchMrm_eq]

end

theorem decodeCall_of_end {buf : Memory} {len pos : Nat} (h : len ≤ pos) :
    decodeCall buf len pos = .err (.bufferExhausted pos) := by
  simp [decodeCall, decodeTraced, byteAt_of_ge h, Call.raise]

/-- With more bytes needed than exist the call names the first missing one. -/
theorem decodeCall_of_exhausted {buf : Memory} {len pos k : Nat} (hr : recognize (buf.read pos) ≠ none)
    (hk : available len pos = k) (hlt : k < (windowAt buf pos).needed) :
    decodeCall buf len pos = .err (.bufferExhausted (pos + k)) :=
  congrArg Call.result (decodeTraced_of_exhausted hr hk hlt)

/-- Settles O12: the bytes the window asks for against the bytes that exist. -/
theorem errorPrecedence : Obligations.ErrorPrecedence := by
  intro buf len pos fam n needs3 needs4
  have hle := needed_le (windowAt buf pos)
  have h2 : 1 < (windowAt buf pos).needed ↔ fam ≠ none := one_lt_needed_iff
  have h3 : 2 < (windowAt buf pos).needed ↔ needs3 := two_lt_needed_iff
  have h4 : 3 < (windowAt buf pos).needed ↔ needs4 := three_lt_needed_iff
  have hav (hl : pos < len) : available len pos = min 4 (len - pos) := if_pos hl
  refine ⟨decodeCall_of_end, decodeCall_of_unrecognized, fun hl hr hend => ?_, fun hl hn hend => ?_, fun hl hn hend => ?_,
    fun hl hr hn3 hn4 => ?_⟩
  · exact decodeCall_of_exhausted hr (by omega) (h2.2 hr)
  · have hlt := h3.2 hn
    exact decodeCall_of_exhausted (h2.1 (by omega)) (by omega) hlt
  · have hlt := h4.2 hn
    exact decodeCall_of_exhausted (h2.1 (by omega)) (by omega) hlt
  · rw [← h3] at hn3
    rw [← h4] at hn4
    exact ⟨_, congrArg Call.result (decodeTraced_of_available hr (by omega))⟩

/-! ### An unrecognized opcode -/

theorem recognize_eq_none_iff (b : Byte) : recognize b = none ↔
    ¬ (0x88 ≤ b.toNat ∧ b.toNat ≤ 0x8B) ∧ ¬ (0xB0 ≤ b.toNat ∧ b.toNat ≤ 0xBF) := by
  revert b; decide

theorem decodeCall_eq_unrecognized_iff {buf : Memory} {len pos offset : Nat} {b : Byte} :
    decodeCall buf len pos = .err (.unrecognizedOpcode b offset) ↔
      pos < len ∧ b = buf.read pos ∧ offset = pos ∧ recognize b = none := by
  constructor
  · intro h
    by_cases hl : pos < len
    · by_cases hr : recognize (buf.read pos) = none
      · rw [decodeCall_of_unrecognized hl hr] at h
        cases h
        exact ⟨hl, rfl, rfl, hr⟩
      · rw [decodeCall_of_recognized hr] at h
        split at h <;> cases h
    · rw [decodeCall_of_end (Nat.le_of_not_lt hl)] at h
      cases h
  · rintro ⟨hl, rfl, rfl, hr⟩
    exact decodeCall_of_unrecognized hl hr

/-- Settles O13: the values the recognizer leaves, and one byte read. -/
theorem unrecognizedOpcodeIsExact : Obligations.UnrecognizedOpcodeIsExact := by
  intro buf len pos b offset
  constructor
  · rw [decodeCall_eq_unrecognized_iff, recognize_eq_none_iff]
  · intro h
    rw [reads_eq_range', h, bytesRead_unrecognizedOpcode, List.range'_one]

/-! ### A pass that an error ended -/

/-- A machine whose next step faults reaches no other state. -/
theorem run_eq_self_of_fault {s u : State} {f : Fault} (h : step s = .fault f) (n : Nat)
    (hrun : Host.Core.run Sys2Proof.core n s = .next u) : u = s := by
  cases n with
  | zero => cases hrun; rfl
  | succ n => rw [run_fault n h] at hrun; cases hrun

/-- Settles O34: the error is taken in one step, and the next one faults. -/
theorem errorStopsPassForGood : Obligations.ErrorStopsPassForGood := by
  intro s e hp hl he
  exact ⟨s.takeError e, step_of_err hp hl he, rfl, rfl, rfl, rfl, rfl,
    fun n u => run_eq_self_of_fault (step_of_failed rfl) n⟩

/-- Settles O37: the loader leaves nothing written, and the first step faults. -/
theorem sourceUnavailableBeforeDecoding : Obligations.SourceUnavailableBeforeDecoding :=
  ⟨rfl, rfl, rfl, rfl, fun n _ => run_eq_self_of_fault (step_of_sourceUnavailable rfl) n⟩

/-! ### How the spec's loop ends -/

/-- A pass over this buffer ended for one of the two reasons it can have: the end of the buffer, or before it the error
of the call at its offset. -/
def PassEnd.HasReason (buf : Memory) (len : Nat) (p : PassEnd) : Prop :=
  (p.phase = .completed ∧ p.pos = len) ∨
  (p.pos < len ∧ ∃ e, p.phase = .failed e ∧ decodeCall buf len p.pos = .err e)

/-- A loop with enough fuel ends with its reason. -/
theorem passLoop_hasReason {buf : Memory} {len : Nat} (fuel : Nat) : ∀ p : PassEnd, p.pos ≤ len →
    len - p.pos < fuel → (passLoop buf len fuel p).HasReason buf len := by
  induction fuel with
  | zero => intro p _ hf; omega
  | succ fuel ih =>
    intro p hpos hf
    rw [passLoop]
    by_cases hl : p.pos < len
    · rw [if_pos hl]
      cases hd : decodeCall buf len p.pos with
      | ok r =>
        have := length_cases_of_ok hd
        exact ih _ (pos_add_length_le_of_ok hd) (by dsimp only; omega)
      | err e => exact .inr ⟨hl, e, rfl, hd⟩
    · rw [if_neg hl]
      exact .inl ⟨rfl, by dsimp only; omega⟩

theorem pass_hasReason (buf : Memory) (len : Nat) : (pass buf len).HasReason buf len :=
  passLoop_hasReason (len + 1) _ (Nat.zero_le len) (Nat.lt_succ_self len)

/-- Settles O38: the exit status of each of the two ends. -/
theorem exitStatusTellsHowPassEnded : Obligations.ExitStatusTellsHowPassEnded := by
  intro buf len p
  rcases pass_hasReason buf len with ⟨hp, hpos⟩ | ⟨hpos, e, hp, he⟩
  · exact .inl ⟨congrArg exitStatus hp, hp, hpos⟩
  · refine .inr ⟨congrArg exitStatus hp, hpos, e, hp, he, ?_⟩
    rintro byte offset rfl
    exact congrArg (fun phase => (diagnostic phase).isSome) hp

/-! ### Several decoders -/

/-- A round advances the machines of the instances it names, and no other. -/
theorem view_stepRound (f : Instances) (round : List Nat) (k : Nat) :
    (f.stepRound round).view k = (f.view k).map (State.advanceMany (if round.contains k then 1 else 0)) := by
  rw [Instances.view, stepRound_driver, Instances.view]
  cases f.drivers[k]? with
  | none => rfl
  | some d =>
    have hmachine : (f.stepRound round).machine = f.machine := rfl
    cases round.contains k
    · simp [hmachine, State.advanceMany]
    · simp [hmachine, machine_stepDriver, State.advanceMany]

/-- A round leaves each driver's choice of a buffer. -/
theorem map_buffer_stepRound (f : Instances) (round : List Nat) :
    (f.stepRound round).drivers.map (·.buffer) = f.drivers.map (·.buffer) := by
  refine List.ext_getElem? fun k => ?_
  rw [List.getElem?_map, stepRound_driver, List.getElem?_map]
  cases f.drivers[k]? with
  | none => rfl
  | some d => cases round.contains k <;> simp

theorem advanceMany_eq_iterate (n : Nat) : State.advanceMany n = State.advance^[n] := by
  induction n with
  | zero => rfl
  | succ n ih => funext s; exact congrFun ih s.advance

/-- Settles O54, by induction on the rounds. -/
theorem instancesDoNotInterfere : Obligations.InstancesDoNotInterfere := by
  intro f schedule
  induction schedule generalizing f with
  | nil => exact ⟨rfl, rfl, fun k => Option.map_id'.symm⟩
  | cons round schedule ih =>
    obtain ⟨hb, hd, hv⟩ := ih (f.stepRound round)
    refine ⟨hb, hd.trans (map_buffer_stepRound f round), fun k => (hv k).trans ?_⟩
    rw [view_stepRound, Option.map_map, List.countP_cons]
    simp only [advanceMany_eq_iterate, Function.iterate_add]

end Sys2Proof.Machine
end

section
/-! SUPPORT. The start of a pass and its length: the invariant before the first step, the header before the first call, and
how many decode calls the spec's loop makes. -/

namespace Sys2Proof.Machine

/-! ### How long a pass takes -/

/-- A call reads window bytes only. -/
theorem reads_length_le (buf : Memory) (len pos : Nat) : (decodeTraced buf len pos).reads.length ≤ 4 := by
  rw [reads_eq_range', List.length_range', bytesRead_decodeCall]
  exact (consultedBytes_le_length _).trans (windowBytes_length_le buf len pos)

/-- The loop makes one call for every two bytes ahead at most, each successful call consuming two or more, and one call
that fails. -/
theorem passLoop_calls_le {buf : Memory} {len : Nat} (fuel : Nat) : ∀ p : PassEnd,
    (passLoop buf len fuel p).calls ≤ p.calls + ((len - p.pos) / 2 + 1) := by
  induction fuel with
  | zero => exact fun p => Nat.le_add_right p.calls _
  | succ fuel ih =>
    intro p
    rw [passLoop]
    by_cases hl : p.pos < len
    · rw [if_pos hl]
      cases hd : decodeCall buf len p.pos with
      | ok r =>
        have hlen := length_cases_of_ok hd
        have hfit := pos_add_length_le_of_ok hd
        refine (ih _).trans ?_
        dsimp only
        omega
      | err e => dsimp only; omega
    · rw [if_neg hl]
      exact Nat.le_add_right p.calls _

theorem pass_calls_le (buf : Memory) (len : Nat) : (pass buf len).calls ≤ len / 2 + 1 :=
  (passLoop_calls_le (len + 1) _).trans_eq (Nat.zero_add _)

/-- A pass that ended for a reason has ended, with its offset in the buffer. -/
theorem PassEnd.HasReason.ended_and_pos_le {buf : Memory} {len : Nat} {p : PassEnd} (h : p.HasReason buf len) :
    p.phase.ended = true ∧ p.pos ≤ len := by
  rcases h with ⟨hp, hpos⟩ | ⟨hpos, e, hp, _⟩
  · exact ⟨congrArg Phase.ended hp, hpos.le⟩
  · exact ⟨congrArg Phase.ended hp, hpos.le⟩

/-- Settles O29: the loop's end has its reason, and every call but the last consumes two bytes or more. -/
theorem passTerminatesInTime : Obligations.PassTerminatesInTime := by
  refine ⟨Nat.le_refl 4, reads_length_le, fun buf len => ?_⟩
  obtain ⟨hended, hpos⟩ := (pass_hasReason buf len).ended_and_pos_le
  exact ⟨hended, hpos, pass_calls_le buf len⟩

/-! ### The start of a pass -/

/-- A machine whose pass has not begun, over a sound buffer or without one, meets the invariant. -/
theorem inv_of_not_begun {s : State} (hb : s.BufferOk) (hp : s.phase = .idle ∨ s.phase = .sourceUnavailable)
    (hpos : s.pos = 0) (hw : s.written = []) : s.Inv where
  buffer := hb
  bounded := by omega
  lines := by rcases hp with hp | hp <;> rw [hp] <;> exact hw
  consumed := by rw [hw, hpos]; rfl
  reason := by rcases hp with hp | hp <;> simpa [EndOk, hp] using hpos

/-- Settles O30: at reset and after the loader no pass has begun. -/
theorem resetAndLoadSatisfyInvariant : Obligations.ResetAndLoadSatisfyInvariant := by
  refine ⟨inv_of_not_begun ⟨State.reset_mem_wf, rfl⟩ (.inl rfl) rfl rfl, fun input => ?_⟩
  cases input with
  | none => exact inv_of_not_begun ⟨State.reset_mem_wf, rfl⟩ (.inr rfl) rfl rfl
  | some bytes => exact inv_of_not_begun ⟨Memory.wf_ofBytes bytes, Memory.within_ofBytes bytes⟩ (.inl rfl) rfl rfl

/-- Settles O36: the first step is the header's; over an empty buffer the second one completes the pass. -/
theorem headerBeforeFirstCall : Obligations.HeaderBeforeFirstCall := by
  refine ⟨⟨rfl, rfl⟩, fun bytes => ?_, ?_⟩
  · exact ⟨rfl, rfl, _, step_of_idle rfl, rfl, rfl, rfl, rfl, rfl⟩
  · have hrun : Host.Core.run Sys2Proof.core 2 (State.load (some [])) = .next (State.load (some [])).start.complete :=
      (run_next 1 (step_of_idle rfl)).trans (run_next 0 (step_of_end rfl (Nat.le_refl 0)))
    exact ⟨_, hrun, rfl, rfl, rfl, rfl⟩

end Sys2Proof.Machine
end

section
/-! SUPPORT. The statement about the buffer's own write, the operation by which a table word is placed. -/

namespace Sys2Proof.Machine

/-- Settles O50: `Memory.read_write` holds of a memory in canonical form from any first offset; the buffer's is from 0. -/
theorem bufferReadAfterWrite : Obligations.BufferReadAfterWrite :=
  fun m p q v hm => Memory.read_write m (lo := 0) hm p q v

end Sys2Proof.Machine
end
